-- ==== Sys2Proof/Word.lean ====
section
/-! DEFINITION. The two word types of IRB: the `Int` of the spec (rule R12) and the operation word (rule R70). -/

namespace Sys2Proof

/-- The spec's `Int`: a signed two's complement integer of `INT_W = 32` bits (rule R12).
Its signed value is `BitVec.toInt`. -/
abbrev Word := BitVec 32

/-- The operation word `W[135:0]` (rule R70). -/
abbrev OpWord := BitVec 136

end Sys2Proof
end

