-- ==== Sys2Proof/Config.lean ====
section
/-! DEFINITION. What is fixed before any operation: the constants of rule R9, the shape of a protocol record
(rule R30) and the OPEN parameters of rule R9. -/

namespace Sys2Proof

/-! ### Constants (rule R9) -/

/-- Width in bits of the free-running microsecond clock (rule R9, decision D4). -/
def Config.clkW : Nat := 30

/-- The exemplar lead-in mark, microseconds (rules R9 and R84). -/
def Config.leadMark : Word := 2400

/-- The exemplar lead-in space (rules R9 and R84). -/
def Config.leadSpace : Word := 600

/-- The mark of a 0 bit (rules R9 and R84, decision D6). -/
def Config.mark0 : Word := 600

/-- The mark of a 1 bit (rules R9 and R84, decision D6). -/
def Config.mark1 : Word := 1200

/-- The space after every data bit (rules R9 and R84, decision D6). -/
def Config.bitSpace : Word := 600

/-- Exclusive lower end of the lead-in mark's window (rules R9 and R126, decision D7). -/
def Config.leadMarkMin : Int := 1800

/-- Exclusive upper end of the lead-in mark's window. -/
def Config.leadMarkMax : Int := 3000

/-- Exclusive lower end of the lead-in space's window. -/
def Config.leadSpaceMin : Int := 350

/-- Exclusive upper end of the lead-in space's window. -/
def Config.leadSpaceMax : Int := 1000

/-- A data mark strictly wider than this is a 1 (rules R9 and R126, decision D7). -/
def Config.bitThreshold : Int := 900

/-! ### The protocol record (rules R8, R10, R30) -/

/-- The three variants of the exemplar family, named by their data bit count (rule R10). -/
inductive Variant where
  | b12
  | b15
  | b20
  deriving DecidableEq, Repr

/-- The data bit count of a variant. -/
def Variant.bits : Variant → Nat
  | .b12 => 12
  | .b15 => 15
  | .b20 => 20

/-- Which decode routine a record selects (the `decode` field of rule R30; rule R121: selected at construction,
never at run time). The spec gives one routine, rule R126 (log entry 20). -/
inductive DecodeRoutine where
  | exemplar
  deriving DecidableEq, Repr

/-- A protocol record `cfg`, the source's ProtocolParameters (rules R8 and R30). -/
structure Cfg where
  bits    : Variant
  nedges  : Nat
  tblock  : Nat
  freq    : Word
  gap     : Word
  cmdW    : Nat
  addrW   : Nat
  extW    : Nat
  cmdMax  : Nat
  addrMax : Nat
  extMax  : Nat
  thresh  : Word
  decode  : DecodeRoutine
  deriving DecidableEq, Repr

/-! ### The OPEN parameters (rule R9): data, so that a claim over all states is a claim over all their values -/

/-- The OPEN parameters of one variant: `TBLOCK(bits)`, `FREQ(bits)`, `GAP(bits)`. -/
structure VariantParams where
  tblock : Nat
  freq   : Word
  gap    : Word
  deriving DecidableEq, Repr

/-- The OPEN parameters of IRB. `ptCap = none` is the unbounded default of `PT_CAP` (rule R56). No operation's
rule uses `jitter` (rule R9). -/
structure Params where
  p12    : VariantParams
  p15    : VariantParams
  p20    : VariantParams
  ptCap  : Option Nat
  jitter : Nat
  deriving DecidableEq, Repr

/-- The parameters of one variant. -/
def Params.of (p : Params) : Variant → VariantParams
  | .b12 => p.p12
  | .b15 => p.p15
  | .b20 => p.p20

/-- The defaults of rule R9. DESIGN CHOICE: `jitter` has no default in the spec; 0 is this model's (log entry 3). -/
def Params.default : Params :=
  { p12 := { tblock := 28000, freq := 40000, gap := 0 }
    p15 := { tblock := 34000, freq := 40000, gap := 0 }
    p20 := { tblock := 40000, freq := 40000, gap := 0 }
    ptCap := none
    jitter := 0 }

end Sys2Proof
end

