-- ==== Sys2Proof/Syntax.lean ====
section
/-! DEFINITION. The eleven operations (rules R16 and R72), the ports they arrive on, and the reasons a word is no
operation (rules R74 and R75). -/

namespace Sys2Proof

/-- One constructor per row of the opcode table, operands in the order of rule R72. -/
inductive Instr where
  | rxinit (bits cb args : Word)
  | errfn (h : Word)
  | close
  | txinit (bits : Word)
  | append (mark space : Word)
  | tx (addr data ext : Word)
  | play
  | edge (t : Word)
  | fire
  | decode
  | docb (cmd addr ext thresh : Word)
  deriving DecidableEq, Repr

/-- The eleven operation codes of rule R72, by name. -/
inductive Opcode where
  | rxinit
  | errfn
  | close
  | txinit
  | append
  | tx
  | play
  | edge
  | fire
  | decode
  | docb
  deriving DecidableEq, Repr

/-- The port of each agent that delivers words (rules R11 and R72): the host port and the three event ports. -/
inductive Port where
  | host
  | pin
  | timer
  | engine
  deriving DecidableEq, Repr

/-- Why a word is illegal (rules R74 and R75). -/
inductive IllegalWord where
  /-- Its `OP` is not in rule R72. -/
  | reservedOp
  /-- An operand field that its format does not use is not zero (rule R75). -/
  | unusedField
  /-- It is an `EDGE` whose `A` is no clock reading (rule R71). -/
  | badReading
  /-- It arrived on a port that is not its agent's (rules R74 and R190). -/
  | wrongPort
  deriving DecidableEq, Repr

end Sys2Proof
end

