-- ==== Sys2Proof/WellFormed.lean ====
section
/-! DEFINITION. Which operations have a word. Every operand field is a whole `Int` (rule R71), so the one check is
the range of the clock reading that `EDGE` carries. -/

namespace Sys2Proof

/-- `v` is a clock reading: it lies in `[0, 2^CLK_W)` (rules R13 and R71). -/
def isReading (v : Word) : Bool := decide (v.toNat < 2 ^ Config.clkW)

/-- The operation has a legal word (rules R71 and R74). -/
def Instr.wf : Instr → Bool
  | .rxinit _ _ _ => true
  | .errfn _ => true
  | .close => true
  | .txinit _ => true
  | .append _ _ => true
  | .tx _ _ _ => true
  | .play => true
  | .edge t => isReading t
  | .fire => true
  | .decode => true
  | .docb _ _ _ _ => true

end Sys2Proof
end

