-- ==== Sys2Proof/Decode.lean ====
section
/-! DEFINITION. The operation word: its fields (rule R70), the decoder (rules R73 to R75), the port check (rule R74)
and the encoder, written from the table of rule R72. -/

namespace Sys2Proof

/-! ### Fields (rule R70) -/

/-- `W[135:128]`. -/
def fieldOp (w : OpWord) : BitVec 8 := w.extractLsb' 128 8

/-- `W[127:96]`. -/
def fieldA (w : OpWord) : Word := w.extractLsb' 96 32

/-- `W[95:64]`. -/
def fieldB (w : OpWord) : Word := w.extractLsb' 64 32

/-- `W[63:32]`. -/
def fieldC (w : OpWord) : Word := w.extractLsb' 32 32

/-- `W[31:0]`. -/
def fieldD (w : OpWord) : Word := w.extractLsb' 0 32

/-- The word with the given fields, the first the most significant. -/
def mkWord (op : BitVec 8) (a b c d : Word) : OpWord := op ++ a ++ b ++ c ++ d

/-! ### Operation codes and ports (rule R72) -/

/-- The number of an operation code. -/
def Opcode.code : Opcode → BitVec 8
  | .rxinit => 0x01
  | .errfn => 0x02
  | .close => 0x03
  | .txinit => 0x10
  | .append => 0x11
  | .tx => 0x12
  | .play => 0x13
  | .edge => 0x80
  | .fire => 0x81
  | .decode => 0x82
  | .docb => 0x83

/-- The port of the code's agent. -/
def Opcode.port : Opcode → Port
  | .rxinit => .host
  | .errfn => .host
  | .close => .host
  | .txinit => .host
  | .append => .host
  | .tx => .host
  | .play => .host
  | .edge => .pin
  | .fire => .timer
  | .decode => .engine
  | .docb => .engine

/-- The codes in the order of the table. -/
def allOpcodes : List Opcode :=
  [.rxinit, .errfn, .close, .txinit, .append, .tx, .play, .edge, .fire, .decode, .docb]

/-- The code that a value of `OP` names; none for a reserved value (rule R74). -/
def opcodeOf (op : BitVec 8) : Option Opcode := allOpcodes.find? fun k => k.code == op

/-- The code of an operation. -/
def Instr.opcode : Instr → Opcode
  | .rxinit _ _ _ => .rxinit
  | .errfn _ => .errfn
  | .close => .close
  | .txinit _ => .txinit
  | .append _ _ => .append
  | .tx _ _ _ => .tx
  | .play => .play
  | .edge _ => .edge
  | .fire => .fire
  | .decode => .decode
  | .docb _ _ _ _ => .docb

/-- The port of the operation's agent. -/
def Instr.port (i : Instr) : Port := i.opcode.port

/-! ### The decoder (rules R73 to R75) -/

/-- The operation `i`, when the fields that its format leaves unused are zero (rule R75). -/
def ifZero (unused : List Word) (i : Instr) : Except IllegalWord Instr :=
  if unused.all (· == 0) then .ok i else .error .unusedField

/-- The operation of a code and its operand fields, each field used whole and in order (rules R71, R72, R75). -/
def operationOf (k : Opcode) (a b c d : Word) : Except IllegalWord Instr :=
  match k with
  | .rxinit => ifZero [d] (.rxinit a b c)
  | .errfn => ifZero [b, c, d] (.errfn a)
  | .close => ifZero [a, b, c, d] .close
  | .txinit => ifZero [b, c, d] (.txinit a)
  | .append => ifZero [c, d] (.append a b)
  | .tx => ifZero [d] (.tx a b c)
  | .play => ifZero [a, b, c, d] .play
  | .edge => if isReading a then ifZero [b, c, d] (.edge a) else .error .badReading
  | .fire => ifZero [a, b, c, d] .fire
  | .decode => ifZero [a, b, c, d] .decode
  | .docb => .ok (.docb a b c d)

/-- Decoding an operation word, whatever port it came on. Total on every 136-bit word; a word that is no operation
is rejected by name. -/
def decodeWord (w : OpWord) : Except IllegalWord Instr :=
  match opcodeOf (fieldOp w) with
  | none => .error .reservedOp
  | some k => operationOf k (fieldA w) (fieldB w) (fieldC w) (fieldD w)

/-- Decoding a word that arrived on port `p`: a word on a port that is not its agent's is illegal (rules R74 and R190;
log entry 11). -/
def decodeOn (p : Port) (w : OpWord) : Except IllegalWord Instr :=
  match decodeWord w with
  | .error e => .error e
  | .ok i => if i.port = p then .ok i else .error .wrongPort

/-! ### The encoder (rules R70 to R72, R75) -/

/-- The word of an operation; the fields its format leaves unused are zero. -/
def encode : Instr → OpWord
  | .rxinit bits cb args => mkWord 0x01 bits cb args 0
  | .errfn h => mkWord 0x02 h 0 0 0
  | .close => mkWord 0x03 0 0 0 0
  | .txinit bits => mkWord 0x10 bits 0 0 0
  | .append mark space => mkWord 0x11 mark space 0 0
  | .tx addr data ext => mkWord 0x12 addr data ext 0
  | .play => mkWord 0x13 0 0 0 0
  | .edge t => mkWord 0x80 t 0 0 0
  | .fire => mkWord 0x81 0 0 0 0
  | .decode => mkWord 0x82 0 0 0 0
  | .docb cmd addr ext thresh => mkWord 0x83 cmd addr ext thresh

/-- The port that carries words of this operation code (rule R72); a word with a reserved code is put on the host
port, where it is illegal like anywhere else. -/
def portOfWord (w : OpWord) : Port :=
  match opcodeOf (fieldOp w) with
  | some k => k.port
  | none => .host

/-- The word whose bits the opcode table numbers: IRB's word is one word of 136 bits, so the table's numbering is
the word's own, and the bits from `nbits` up are zero. -/
def tableWord (nbits w : Nat) : OpWord := BitVec.ofNat 136 (w % 2 ^ nbits)

/-- What the decoder reads from the operation word whose bits are `w`; none where it refuses. -/
def decodeTableWord (nbits w : Nat) : Option Instr :=
  match decodeWord (tableWord nbits w) with
  | .ok i => some i
  | .error _ => none

end Sys2Proof
end

