-- ==== Sys2Proof/Machine/Protocol.lean ====
section
/-! DEFINITION. The three exemplar protocol records `PROTO[bits]` (rule R85). -/

namespace Sys2Proof.Machine

/-- `PROTO[bits]` under the parameters `p` (rule R85): 26, 32 or 42 expected edges (rule R87), the field widths and
maxima of rule R81, the source's default threshold 0. -/
def proto (p : Params) : Variant → Cfg
  | .b12 =>
    { bits := .b12, nedges := 26
      tblock := (p.of .b12).tblock, freq := (p.of .b12).freq, gap := (p.of .b12).gap
      cmdW := 7, addrW := 5, extW := 0, cmdMax := 0x7F, addrMax := 0x1F, extMax := 0
      thresh := 0, decode := .exemplar }
  | .b15 =>
    { bits := .b15, nedges := 32
      tblock := (p.of .b15).tblock, freq := (p.of .b15).freq, gap := (p.of .b15).gap
      cmdW := 7, addrW := 8, extW := 0, cmdMax := 0x7F, addrMax := 0xFF, extMax := 0
      thresh := 0, decode := .exemplar }
  | .b20 =>
    { bits := .b20, nedges := 42
      tblock := (p.of .b20).tblock, freq := (p.of .b20).freq, gap := (p.of .b20).gap
      cmdW := 7, addrW := 5, extW := 8, cmdMax := 0x7F, addrMax := 0x1F, extMax := 0xFF
      thresh := 0, decode := .exemplar }

end Sys2Proof.Machine
end

