-- ==== Sys2Proof/Machine/State.lean ====
section
/-! DEFINITION. The state of IRB (rules R20 to R42) as plain data, its reset (rules R39 and R200), and the reasons
a step can stop. -/

namespace Sys2Proof.Machine

/-! ### Values that appear in the state -/

/-- The receiver's phase (rule R26). -/
inductive Phase where
  | unconf
  | idle
  | armed
  | fired
  | closed
  deriving DecidableEq, Repr

/-- The timestamp memory (rules R29 and R51): `size` slots, the listed ones holding a reading. The unit of address is
one whole `Int` (rule R58). An unlisted slot holds no value (rule R54). Canonical form: `Memory.wf` of Ops.lean
(log entry 8). -/
structure Memory where
  size  : Nat
  cells : List (Nat × Word)
  deriving DecidableEq, Repr

/-- One element of the pulse memory (rules R56 and R89): microseconds on, then microseconds off. -/
structure Pair where
  mark  : Word
  space : Word
  deriving DecidableEq, Repr

/-- The seven result codes (rule R78). -/
inductive ResultCode where
  | repeatCode
  | badStart
  | badBlock
  | badRep
  | overrun
  | badData
  | badAddr
  deriving DecidableEq, Repr

/-- A DecodeResult (rules R77 and R124): the valid triple or one of the seven codes. It lives inside one `DECODE`
only and is never stored (rule R20). -/
inductive DecodeResult where
  | valid (cmd addr ext : Word)
  | error (code : ResultCode)
  deriving DecidableEq, Repr

/-- The reasons a `ConfigError` carries (rule R94). -/
inductive ConfigReason where
  | badVariant
  | reinit
  | notConstructed
  deriving DecidableEq, Repr

/-- A `ConfigError` as the host receives it: "the reason is returned to the host with the refused operation"
(rule R94). -/
structure ConfigError where
  op     : Instr
  reason : ConfigReason
  deriving DecidableEq, Repr

/-- The output events (rules R15, R139, R140, R161). -/
inductive Event where
  | cb (sink cmd addr ext args : Word)
  | err (sink code : Word)
  | txout (pulses : List Pair) (freq gap : Word)
  deriving DecidableEq, Repr

/-- What the outside world can deliver: an operation word on a port at a time (rules R16, R17, R74), or an assertion
of the reset input (rule R200). -/
inductive Input where
  | word (time : Nat) (port : Port) (w : OpWord)
  | rst (time : Nat)
  deriving DecidableEq, Repr

/-! ### The state -/

/-- The receiver (rule R20). -/
structure Rx where
  phase    : Phase
  edge     : Nat
  deadline : Nat
  times    : Memory
  cfg      : Cfg
  cb       : Word
  args     : Word
  errh     : Word
  deriving DecidableEq, Repr

/-- The transmitter (rule R20). -/
structure Tx where
  conf   : Bool
  cfg    : Cfg
  freq   : Word
  gap    : Word
  pulses : List Pair
  deriving DecidableEq, Repr

/-- The environment, which the spec keeps outside IRB (rule R22) and passes to the step: the time of the operation,
the inputs still to be delivered in order, the OPEN parameters. The model's own field (log entries 1 and 3). -/
structure Env where
  now    : Nat
  inbox  : List Input
  params : Params
  deriving DecidableEq, Repr

/-- What has left IRB so far, oldest first: events to the sinks and `ConfigError`s to the host. The model's own field;
no operation reads it (log entries 6 and 7). -/
structure Out where
  events : List Event
  errors : List ConfigError
  deriving DecidableEq, Repr

/-- The state: IRB's receiver, transmitter and model-level mark (rule R20), with the environment and the outputs. -/
structure State where
  rx      : Rx
  tx      : Tx
  faulted : Bool
  env     : Env
  out     : Out
  deriving DecidableEq, Repr

/-! ### Reset (rules R39 and R200) -/

/-- The receiver after reset. DESIGN CHOICE (log entry 4): R39 leaves `deadline`, `cfg`, `cb` and `args` unspecified;
they are 0, PROTO[12], 0 and 0 here. -/
def Rx.reset (p : Params) : Rx :=
  { phase := .unconf, edge := 0, deadline := 0, times := { size := 0, cells := [] }
    cfg := proto p .b12, cb := 0, args := 0, errh := 0 }

/-- The transmitter after reset. DESIGN CHOICE (log entry 4): R39 leaves `cfg`, `freq` and `gap` unspecified; they are
those of PROTO[12] here. -/
def Tx.reset (p : Params) : Tx :=
  { conf := false, cfg := proto p .b12, freq := (proto p .b12).freq, gap := (proto p .b12).gap, pulses := [] }

/-- The machine right after reset: IRB at rule R39, nothing delivered yet, the default parameters, nothing emitted. -/
def State.reset : State :=
  { rx := Rx.reset Params.default
    tx := Tx.reset Params.default
    faulted := false
    env := { now := 0, inbox := [], params := Params.default }
    out := { events := [], errors := [] } }

/-! ### Stops -/

/-- The model-level faults (rules R42 and R170). Each is safe: the model stops where the real block may go on. -/
inductive Fault where
  /-- Raised by `EDGE` in phase FIRED, the data race the source forbids (rules R107 and R173). Safe. -/
  | raceFault
  /-- Raised by a read of a slot that holds no value (rules R54 and R174). Safe. -/
  | unwrittenRead
  /-- Raised by an access outside the timestamp memory (rules R53 and R175). Safe. -/
  | indexFault
  /-- Raised by an append to a pulse memory that already holds `PT_CAP` pairs (rules R56 and R176). Safe. -/
  | txOverflow
  /-- Raised by the step, not by an operation: a word reached a state that is already `faulted`, and a faulted run
  has no continuation (rule R42). Safe. -/
  | faultedRun
  deriving DecidableEq, Repr

/-- The refusals. Each is safe: no state follows. -/
inductive Refusal where
  /-- Raised by an arm of `exec` whose instruction has no meaning yet. Safe. -/
  | notModelled (mnemonic : String)
  /-- Raised by the step for a word that is no operation (rule R74: "a model refuses such a word at its decoder").
  Safe. -/
  | illegalWord (why : IllegalWord)
  deriving DecidableEq, Repr

end Sys2Proof.Machine
end

