-- ==== Sys2Proof/Machine/Operands.lean ====
section
/-! DEFINITION. Every computation on operands: the variant selector (rule R91), the time difference (rule R13), the
packed value (rules R82, R83, R127), its serialisation into pairs (rule R84), and the numbers of the result codes
and of the configuration reasons (rules R78 and R94). -/

namespace Sys2Proof.Machine

/-! ### Selector -/

/-- The variant that a selector operand names; every other value selects nothing (rule R91). -/
def selectVariant (bits : Word) : Option Variant :=
  if bits = 12 then some .b12
  else if bits = 15 then some .b15
  else if bits = 20 then some .b20
  else none

/-! ### Time difference (rule R13) -/

/-- `tdiff(a, b)`: the signed elapsed microseconds from reading `b` to reading `a`, right while the true elapsed time
is below `2^(CLK_W-1)`. `%` is the non-negative remainder. -/
def tdiff (a b : Word) : Int :=
  (a.toInt - b.toInt + 2 ^ (Config.clkW - 1)) % 2 ^ Config.clkW - 2 ^ (Config.clkW - 1)

/-! ### Packed value -/

/-- The packed value that `TX` serialises (rule R83): each operand reduced to its field width, then placed. -/
def pack (b : Variant) (addr data ext : Word) : Word :=
  match b with
  | .b12 => (data &&& (0x7F : Word)) ||| ((addr &&& (0x1F : Word)) <<< 7)
  | .b15 => (data &&& (0x7F : Word)) ||| ((addr &&& (0xFF : Word)) <<< 7)
  | .b20 => (data &&& (0x7F : Word)) ||| ((addr &&& (0x1F : Word)) <<< 7) ||| ((ext &&& (0xFF : Word)) <<< 12)

/-- Field extraction and range validation of a non-negative packed value (rule R127); the topmost field of each
variant is taken without a mask. -/
def unpack (b : Variant) (v : Word) : DecodeResult :=
  match b with
  | .b12 => if (v >>> 7).toNat > 0x1F then .error .badAddr else .valid (v &&& (0x7F : Word)) (v >>> 7) 0
  | .b15 => if (v >>> 7).toNat > 0xFF then .error .badAddr else .valid (v &&& (0x7F : Word)) (v >>> 7) 0
  | .b20 =>
    if (v >>> 12).toNat > 0xFF then .error .badData
    else .valid (v &&& (0x7F : Word)) ((v >>> 7) &&& (0x1F : Word)) (v >>> 12)

/-! ### Serialisation (rule R84) -/

/-- The pair of one data bit. -/
def bitPair (bit : Bool) : Pair :=
  if bit then { mark := Config.mark1, space := Config.bitSpace }
  else { mark := Config.mark0, space := Config.bitSpace }

/-- The lead-in pair. -/
def leadPair : Pair := { mark := Config.leadMark, space := Config.leadSpace }

/-- The `n` data pairs of the bits of `v` from bit `k` up, least significant first. -/
def bitPairs (v : Word) (k : Nat) : Nat → List Pair
  | 0 => []
  | n + 1 => bitPair (v.getLsbD k) :: bitPairs v (k + 1) n

/-- The pairs `TX` appends, in order: the lead-in, then one pair for each data bit. -/
def trainOf (b : Variant) (v : Word) : List Pair := leadPair :: bitPairs v 0 b.bits

/-! ### Numbers -/

/-- The number of a result code as an `Int` (rule R78). -/
def ResultCode.number : ResultCode → Word
  | .repeatCode => -1
  | .badStart => -2
  | .badBlock => -3
  | .badRep => -4
  | .overrun => -5
  | .badData => -6
  | .badAddr => -7

/-- The number of a configuration reason (rule R94). -/
def ConfigReason.number : ConfigReason → Word
  | .badVariant => 1
  | .reinit => 2
  | .notConstructed => 3

/-- The first integer of a result on the wire: the command, or the code (rule R77). -/
def DecodeResult.cmd : DecodeResult → Word
  | .valid cmd _ _ => cmd
  | .error code => code.number

/-- The second integer of a result on the wire: the address, or 0 beside a code (rule R77). -/
def DecodeResult.addr : DecodeResult → Word
  | .valid _ addr _ => addr
  | .error _ => 0

/-- The third integer of a result on the wire: the extra field, or 0 beside a code (rule R77). -/
def DecodeResult.ext : DecodeResult → Word
  | .valid _ _ ext => ext
  | .error _ => 0

end Sys2Proof.Machine
end

