-- ==== Sys2Proof/Machine/Flags.lean ====
section
/-! DEFINITION. IRB has no flags (rule R33): no operation stores the outcome of a test. Here stand the tests themselves,
each consumed where it is made. -/

namespace Sys2Proof.Machine

/-- The dispatch test `cmd >= thresh`, signed (rule R135). -/
def passes (cmd thresh : Word) : Bool := decide (cmd.toInt ≥ thresh.toInt)

/-- The overrun condition read off the counter (rules R33 and R122). -/
def overruns (cfg : Cfg) (n : Nat) : Bool := decide (n > cfg.nedges)

/-- The lead-in mark lies strictly inside its window (rule R126). -/
def leadMarkOk (w : Int) : Bool := decide (Config.leadMarkMin < w ∧ w < Config.leadMarkMax)

/-- The lead-in space lies strictly inside its window (rule R126). -/
def leadSpaceOk (w : Int) : Bool := decide (Config.leadSpaceMin < w ∧ w < Config.leadSpaceMax)

/-- A data mark is a 1 when strictly wider than the threshold (rule R126). -/
def markIsOne (w : Int) : Bool := decide (w > Config.bitThreshold)

/-- The pulse memory already holds `PT_CAP` pairs (rule R176); never so when it is unbounded (log entry 13). -/
def pulsesFull (p : Params) (pulses : List Pair) : Bool :=
  match p.ptCap with
  | none => false
  | some cap => decide (cap ≤ pulses.length)

end Sys2Proof.Machine
end

