-- ==== Sys2Proof/Machine/Ops.lean ====
section
/-! DEFINITION. The named operations: the timestamp memory (rules R52 to R54), the updates of the state, the pulse
memory's append (rule R152), returning a `ConfigError` (rule R172), dispatching a result to a channel (rule R135),
taking the next input and asserting reset (rules R17 and R200), and what a stop leaves (rules R42 and R74). -/

namespace Sys2Proof.Machine

/-! ### Timestamp memory -/

/-- The value listed for slot `i`. -/
def lookupCell (i : Nat) : List (Nat × Word) → Option Word
  | [] => none
  | (j, v) :: rest => if i = j then some v else lookupCell i rest

/-- The listing with slot `i` holding `v`, in rising order of slots. -/
def insertCell (i : Nat) (v : Word) : List (Nat × Word) → List (Nat × Word)
  | [] => [(i, v)]
  | (j, w) :: rest =>
    if i < j then (i, v) :: (j, w) :: rest
    else if i = j then (i, v) :: rest
    else (j, w) :: insertCell i v rest

/-- The listed slots rise strictly from `lo` and stay below `size`. -/
def cellsRise (size : Nat) : Nat → List (Nat × Word) → Bool
  | _, [] => true
  | lo, (i, _) :: rest => decide (lo ≤ i) && decide (i < size) && cellsRise size (i + 1) rest

/-- The canonical form: listed slots rise strictly and lie inside the array. An unlisted slot holds no value, so no
entry can equal it. -/
def Memory.wf (m : Memory) : Bool := cellsRise m.size 0 m.cells

/-- A fresh array of `n` slots, each holding no value (rule R40). -/
def Memory.fresh (n : Nat) : Memory := { size := n, cells := [] }

/-- `MemRead(i)` (rule R52): the reading in slot `i`; a fault outside the array (rule R53) and at a slot that holds
no value (rule R54). -/
def Memory.read (m : Memory) (i : Nat) : Except Fault Word :=
  if i < m.size then
    match lookupCell i m.cells with
    | some v => .ok v
    | none => .error .unwrittenRead
  else .error .indexFault

/-- `MemWrite(i, v)` (rule R52): slot `i` holds `v`; a fault outside the array (rule R53). -/
def Memory.write (m : Memory) (i : Nat) (v : Word) : Except Fault Memory :=
  if i < m.size then .ok { m with cells := insertCell i v m.cells }
  else .error .indexFault

/-! ### Updates of the state -/

/-- `rx.phase <- p`. -/
def State.setPhase (s : State) (p : Phase) : State := { s with rx := { s.rx with phase := p } }

/-- `rx.edge <- n`. -/
def State.setEdge (s : State) (n : Nat) : State := { s with rx := { s.rx with edge := n } }

/-- `rx.deadline <- t`. -/
def State.setDeadline (s : State) (t : Nat) : State := { s with rx := { s.rx with deadline := t } }

/-- The timestamp memory becomes `m`. -/
def State.setTimes (s : State) (m : Memory) : State := { s with rx := { s.rx with times := m } }

/-- `rx.errh <- h`. -/
def State.setErrh (s : State) (h : Word) : State := { s with rx := { s.rx with errh := h } }

/-- The pulse memory becomes `ps`. -/
def State.setPulses (s : State) (ps : List Pair) : State := { s with tx := { s.tx with pulses := ps } }

/-- `emit e` (rule R15). -/
def State.emit (s : State) (e : Event) : State :=
  { s with out := { s.out with events := s.out.events ++ [e] } }

/-- `raise ConfigError(r)` of the operation `op` (rules R94 and R172): the reason goes back to the host with the
refused operation, and nothing else changes (log entry 6). -/
def State.returnError (s : State) (op : Instr) (r : ConfigReason) : State :=
  { s with out := { s.out with errors := s.out.errors ++ [{ op := op, reason := r }] } }

/-! ### Construction -/

/-- The receiver constructed with record `c` (rules R40 and R101): the handler token is not written; neither is the
deadline, which R40 leaves unspecified (log entry 10). -/
def State.constructRx (s : State) (c : Cfg) (cb args : Word) : State :=
  { s with rx := { s.rx with
      cfg := c, cb := cb, args := args, times := Memory.fresh (c.nedges + 1), edge := 0, phase := .idle } }

/-- The transmitter constructed with record `c` (rules R41 and R151). -/
def State.constructTx (s : State) (c : Cfg) : State :=
  { s with tx := { cfg := c, freq := c.freq, gap := c.gap, pulses := [], conf := true } }

/-! ### Recording an edge -/

/-- The reading `t` goes into slot `rx.edge` and the counter goes up by one; the first edge of a block arms the timer
(rule R102). `env.now` is the time `T` of the operation. -/
def recordEdge (t : Word) (s : State) : Except Fault State :=
  match s.rx.times.write s.rx.edge t with
  | .error f => .error f
  | .ok m =>
    if s.rx.edge = 0 then
      .ok ((((s.setTimes m).setPhase .armed).setDeadline (s.env.now + s.rx.cfg.tblock)).setEdge (s.rx.edge + 1))
    else .ok ((s.setTimes m).setEdge (s.rx.edge + 1))

/-! ### Pulse memory -/

/-- The append primitive (rule R152): one pair at the end, or the overflow fault (rule R176). -/
def appendPair (p : Pair) (s : State) : Except Fault State :=
  if pulsesFull s.env.params s.tx.pulses then .error .txOverflow
  else .ok (s.setPulses (s.tx.pulses ++ [p]))

/-- Pairs appended one after the other through the same primitive (rule R160; log entry 14). -/
def appendPairs : List Pair → State → Except Fault State
  | [], s => .ok s
  | p :: ps, s =>
    match appendPair p s with
    | .error f => .error f
    | .ok t => appendPairs ps t

/-! ### Dispatch of a result: the entry into a consumer's code (rules R135 and R188) -/

/-- `DOCB cmd, addr, ext, thresh`: the callback's event when `cmd >= thresh`, else the error handler's when one is
registered, else nothing; nothing at all without a receiver or after `CLOSE` (rules R135, R136, R138 to R140).
Nothing is saved and nothing returns (rules R188 and R189). -/
def dispatch (cmd addr ext thresh : Word) (s : State) : State :=
  match s.rx.phase with
  | .unconf => s
  | .closed => s
  | .idle | .armed | .fired =>
    if passes cmd thresh then s.emit (.cb s.rx.cb cmd addr ext s.rx.args)
    else if s.rx.errh ≠ 0 then s.emit (.err s.rx.errh cmd)
    else s

/-! ### Inputs -/

/-- The time an input is delivered at. -/
def Input.time : Input → Nat
  | .word t _ _ => t
  | .rst t => t

/-- The next input and the state in which it is performed: its time is the present, and it is no longer waiting
(log entry 1). -/
def takeInput (s : State) : Option (Input × State) :=
  match s.env.inbox with
  | [] => none
  | i :: rest => some (i, { s with env := { s.env with now := i.time, inbox := rest } })

/-- `RST` asserted (rule R200): every piece of IRB's state at its reset value. What the environment holds and what
has already left IRB are not IRB's state (log entry 21). -/
def assertReset (s : State) : State :=
  { s with rx := Rx.reset s.env.params, tx := Tx.reset s.env.params, faulted := false }

/-- The word `w` stored where the step takes its next input: at the head of the inbox, on the port of its operation
code, at the present time (log entry 1). -/
def putWord (s : State) (w : OpWord) : State :=
  { s with env := { s.env with inbox := .word s.env.now (portOfWord w) w :: s.env.inbox } }

/-! ### What a stop leaves (log entry 5) -/

/-- `faulted` set (rule R42). -/
def State.markFaulted (s : State) : State := { s with faulted := true }

/-- The inbox without its head. -/
def dropInput (s : State) : State :=
  { s with env := { s.env with inbox := s.env.inbox.tail } }

/-- What an observer who goes on after the outcome `o` of a step from `s` may rely on: the next state; after a fault,
that `faulted` is set, and nothing of the other fields, which no rule describes (rule R42); after a refused word, the
same state with the word gone (rule R74: "IRB ignores it, no state changes, no event is emitted"). -/
def settle (s : State) (o : Host.Outcome State Fault Refusal) : State :=
  match o with
  | .next t => t
  | .fault _ => (dropInput s).markFaulted
  | .refused _ => dropInput s

end Sys2Proof.Machine
end

