-- ==== Sys2Proof/Machine/Capture.lean ====
section
/-! DEFINITION. The edge-capture family (40_edge_capture.md): RXINIT, EDGE, FIRE, CLOSE. -/

namespace Sys2Proof.Machine

/-- `RXINIT bits, cb, args` (rule R101). -/
def execRxinit (bits cb args : Word) (s : State) : Host.Outcome State Fault Refusal :=
  if s.rx.phase ≠ .unconf then .next (s.returnError (.rxinit bits cb args) .reinit)
  else
    match selectVariant bits with
    | none => .next (s.returnError (.rxinit bits cb args) .badVariant)
    | some b => .next (s.constructRx (proto s.env.params b) cb args)

/-- `EDGE t` (rules R102, R103 and R107). -/
def execEdge (t : Word) (s : State) : Host.Outcome State Fault Refusal :=
  match s.rx.phase with
  | .unconf | .closed => .next s
  | .fired => .fault .raceFault
  | .idle | .armed =>
    if s.rx.edge ≤ s.rx.cfg.nedges then
      match recordEdge t s with
      | .ok s' => .next s'
      | .error f => .fault f
    else .next s

/-- `FIRE` (rule R104). -/
def execFire (s : State) : Host.Outcome State Fault Refusal :=
  match s.rx.phase with
  | .armed | .idle => .next (s.setPhase .fired)
  | .fired | .unconf | .closed => .next s

/-- `CLOSE` (rule R105). -/
def execClose (s : State) : Host.Outcome State Fault Refusal :=
  match s.rx.phase with
  | .unconf => .next s
  | .idle | .armed | .fired | .closed => .next (s.setPhase .closed)

end Sys2Proof.Machine
end

