-- ==== Sys2Proof/Machine/DecodeDispatch.lean ====
section
/-! DEFINITION. The decode and dispatch family (41_decode_dispatch.md): the exemplar decode routine, DECODE, DOCB,
ERRFN. -/

namespace Sys2Proof.Machine

/-! ### The exemplar decode routine (rules R125 to R128) -/

/-- `tdiff(times[i], times[j])`. -/
def slotDiff (m : Memory) (i j : Nat) : Except Fault Int := do
  let a ← m.read i
  let b ← m.read j
  pure (tdiff a b)

/-- The value of the data bits `0 .. n-1`, least significant first: bit `k` from the mark between slots `2 + 2k`
and `3 + 2k` (rules R88 and R126). -/
def collectBits (m : Memory) : Nat → Except Fault Word
  | 0 => pure 0
  | k + 1 => do
    let v ← collectBits m k
    let w ← slotDiff m (3 + 2 * k) (2 + 2 * k)
    pure (if markIsOne w then v ||| ((1 : Word) <<< k) else v)

/-- `decode_ex(times, n)` (rule R126), the first failing check winning (rule R125). -/
def decodeExemplar (cfg : Cfg) (m : Memory) (n : Nat) : Except Fault DecodeResult :=
  if overruns cfg n then pure (.error .overrun)
  else if n ≠ cfg.nedges then pure (.error .badBlock)
  else do
    let leadMark ← slotDiff m 1 0
    if !leadMarkOk leadMark then pure (.error .badStart)
    else do
      let leadSpace ← slotDiff m 2 1
      if !leadSpaceOk leadSpace then pure (.error .badStart)
      else do
        let v ← collectBits m cfg.bits.bits
        pure (unpack cfg.bits v)

/-- `cfg.decode(times, n)`: the routine the record selects (rules R30 and R121). -/
def runDecode (cfg : Cfg) (m : Memory) (n : Nat) : Except Fault DecodeResult :=
  match cfg.decode with
  | .exemplar => decodeExemplar cfg m n

/-! ### The operations -/

/-- The end of `DECODE` once the block is classified: the counter reset, the return to IDLE, then the dispatch under
the record's threshold (rules R120 and R123). The readings stay (log entry 9). -/
def finishDecode (r : DecodeResult) (s : State) : State :=
  dispatch r.cmd r.addr r.ext s.rx.cfg.thresh ((s.setEdge 0).setPhase .idle)

/-- `DECODE` (rule R120). -/
def execDecode (s : State) : Host.Outcome State Fault Refusal :=
  match s.rx.phase with
  | .fired =>
    match runDecode s.rx.cfg s.rx.times s.rx.edge with
    | .ok r => .next (finishDecode r s)
    | .error f => .fault f
  | .unconf | .idle | .armed | .closed => .next s

/-- `DOCB cmd, addr, ext, thresh` as a word of its own (rules R135 and R136). -/
def execDocb (cmd addr ext thresh : Word) (s : State) : Host.Outcome State Fault Refusal :=
  .next (dispatch cmd addr ext thresh s)

/-- `ERRFN h` (rule R137): in every phase. -/
def execErrfn (h : Word) (s : State) : Host.Outcome State Fault Refusal :=
  .next (s.setErrh h)

end Sys2Proof.Machine
end

