-- ==== Sys2Proof/Machine/Transmit.lean ====
section
/-! DEFINITION. The transmit family (42_transmit.md): TXINIT, APPEND, TX, PLAY. -/

namespace Sys2Proof.Machine

/-- `TXINIT bits` (rule R151). -/
def execTxinit (bits : Word) (s : State) : Host.Outcome State Fault Refusal :=
  if s.tx.conf then .next (s.returnError (.txinit bits) .reinit)
  else
    match selectVariant bits with
    | none => .next (s.returnError (.txinit bits) .badVariant)
    | some b => .next (s.constructTx (proto s.env.params b))

/-- `APPEND mark, space` (rule R152). -/
def execAppend (mark space : Word) (s : State) : Host.Outcome State Fault Refusal :=
  if s.tx.conf then
    match appendPair { mark := mark, space := space } s with
    | .ok s' => .next s'
    | .error f => .fault f
  else .next (s.returnError (.append mark space) .notConstructed)

/-- `TX addr, data, ext` (rule R160): the pulse memory emptied, then the whole train appended. -/
def execTx (addr data ext : Word) (s : State) : Host.Outcome State Fault Refusal :=
  if s.tx.conf then
    match appendPairs (trainOf s.tx.cfg.bits (pack s.tx.cfg.bits addr data ext)) (s.setPulses []) with
    | .ok s' => .next s'
    | .error f => .fault f
  else .next (s.returnError (.tx addr data ext) .notConstructed)

/-- `PLAY` (rule R161). -/
def execPlay (s : State) : Host.Outcome State Fault Refusal :=
  if s.tx.conf then .next (s.emit (.txout s.tx.pulses s.tx.freq s.tx.gap))
  else .next (s.returnError .play .notConstructed)

end Sys2Proof.Machine
end

