-- ==== Sys2Proof/Machine/Dispatch.lean ====
section
/-! DEFINITION. Which meaning each operation has: one arm for each constructor of `Instr`. -/

namespace Sys2Proof.Machine

def exec (i : Instr) (s : State) : Host.Outcome State Fault Refusal :=
  match i with
  | .rxinit bits cb args => Sys2Proof.Machine.execRxinit bits cb args s
  | .errfn h => Sys2Proof.Machine.execErrfn h s
  | .close => Sys2Proof.Machine.execClose s
  | .txinit bits => Sys2Proof.Machine.execTxinit bits s
  | .append mark space => Sys2Proof.Machine.execAppend mark space s
  | .tx addr data ext => Sys2Proof.Machine.execTx addr data ext s
  | .play => Sys2Proof.Machine.execPlay s
  | .edge t => Sys2Proof.Machine.execEdge t s
  | .fire => Sys2Proof.Machine.execFire s
  | .decode => Sys2Proof.Machine.execDecode s
  | .docb cmd addr ext thresh => Sys2Proof.Machine.execDocb cmd addr ext thresh s

end Sys2Proof.Machine
end

