-- ==== Sys2Proof/Machine/Step.lean ====
section
/-! DEFINITION. One step: the next input is taken and performed (rules R16, R73, R74, R200). -/

namespace Sys2Proof.Machine

/-- One step of the machine. With nothing delivered nothing happens (log entry 2). A reset assertion resets. A word is
decoded on the port it came on: an operation is performed, an illegal word is refused by name (rule R74), and a
run that has faulted has no continuation but reset (rules R42 and R201). -/
def step (s : State) : Host.Outcome State Fault Refusal :=
  match takeInput s with
  | none => .next s
  | some (.rst _, t) => .next (assertReset t)
  | some (.word _ p w, t) =>
    if t.faulted then .fault .faultedRun
    else
      match decodeOn p w with
      | .error why => .refused (.illegalWord why)
      | .ok i => exec i t

/-- `s` with the operation word of the table bits `w` delivered next (log entry 1). -/
def State.withFetchWord (s : State) (nbits w : Nat) : State := putWord s (tableWord nbits w)

end Sys2Proof.Machine
end

