-- ==== Sys2Proof/Machine/Bench.lean ====
section
/-! DEFINITION. The spec's test-bench forms: the edges a pulse train makes (rule R86), the four pseudo-operations
(rule R93), and a sequence of operations performed one after the other. Nothing here is an operation of IRB. -/

namespace Sys2Proof.Machine

/-- Both durations are positive. `edgesOf` is defined for such pairs only (rule R86). -/
def Pair.positive (p : Pair) : Bool := decide (0 < p.mark.toInt) && decide (0 < p.space.toInt)

/-- `edges_of(pulses, t0)` (rule R86): the times of the transitions of a train played from `t0`, the last space being
ended by none. -/
def edgesOf (t0 : Nat) : List Pair → List Nat
  | [] => []
  | p :: ps => t0 :: (t0 + p.mark.toNat) :: edgesOf (t0 + p.mark.toNat + p.space.toNat) ps

/-- The clock's reading at time `T` (rule R17). -/
def readingAt (T : Nat) : Word := BitVec.ofNat 32 (T % 2 ^ Config.clkW)

/-- The `EDGE`s of a train received with zero latency. -/
def blockEdges (t0 : Nat) (pulses : List Pair) : List Instr :=
  (edgesOf t0 pulses).map fun e => Instr.edge (readingAt e)

/-- The pseudo-operations (rule R93). -/
inductive Pseudo where
  | expire
  | transmit (addr data ext : Word)
  | block (t0 : Nat) (pulses : List Pair)
  | loopback (t0 : Nat)
  deriving DecidableEq, Repr

/-- The expansion of a pseudo-operation in state `s`; none for a train with a duration that is not positive, which
is refused as a stimulus (rule R93; 93_implementation_defined.md U8; log entry 24). -/
def expand (s : State) : Pseudo → Option (List Instr)
  | .expire => some [.fire, .decode]
  | .transmit addr data ext => some [.tx addr data ext, .play]
  | .block t0 pulses => if pulses.all Pair.positive then some (blockEdges t0 pulses) else none
  | .loopback t0 => if s.tx.pulses.all Pair.positive then some (blockEdges t0 s.tx.pulses) else none

/-- The input by which the agent of `i` delivers it at time `T`. -/
def delivery (T : Nat) (i : Instr) : Input := .word T i.port (encode i)

/-- Operations performed one after the other, stopping at the first that does not answer a next state. -/
def execAll : List Instr → State → Host.Outcome State Fault Refusal
  | [], s => .next s
  | i :: is, s =>
    match exec i s with
    | .next t => execAll is t
    | .fault f => .fault f
    | .refused r => .refused r

/-- The sum of all durations of a train, microseconds (rule R163). -/
def trainLength (pulses : List Pair) : Nat :=
  (pulses.map fun p => p.mark.toNat + p.space.toNat).sum

/-- The number of 1 bits among the `n` low bits of a packed value (rule R163). -/
def ones (v : Word) (n : Nat) : Nat := ((List.range n).filter fun k => v.getLsbD k).length

end Sys2Proof.Machine
end

