-- ==== Sys2Proof/Safety.lean ====
section
/-! DEFINITION. What counts as a safe run: the invariants of every reachable unfaulted state (rule R37), what the
environment owes (rules R183, R210 to R214), the constraints on parameters (rules R9, R210 and R212), and the end of
a run (rule R204). -/

namespace Sys2Proof.Machine

/-! ### Invariants -/

/-- Slot `i` holds a value. -/
def Memory.holds (m : Memory) (i : Nat) : Bool := (lookupCell i m.cells).isSome

/-- The invariants of rule R37, clauses a to d, f and g, with those this model's state needs beside them: the memory's
canonical form and size (rules R51 and R53), every listed value a clock reading (rule R29), the two records
PROTO records (rule R23), the transmitter's registers those of its record (rule R41), the pulse memory within its
capacity (rule R56). Clause e is about a run of edges and has a statement of its own. -/
structure Inv (s : State) : Prop where
  /-- R37 a. -/
  edge_bound : s.rx.phase ≠ .unconf → s.rx.edge ≤ s.rx.cfg.nedges + 1
  /-- R37 b. -/
  idle_edge : s.rx.phase = .idle → s.rx.edge = 0
  /-- R37 c. -/
  armed_edge : s.rx.phase = .armed → 1 ≤ s.rx.edge
  /-- R37 d. -/
  slots_written : s.rx.phase = .armed ∨ s.rx.phase = .fired → ∀ i < s.rx.edge, s.rx.times.holds i = true
  /-- R37 f. -/
  unconf_edge : s.rx.phase = .unconf → s.rx.edge = 0
  /-- R37 g. -/
  pulses_empty : s.tx.conf = false → s.tx.pulses = []
  /-- The timestamp memory is in canonical form. -/
  times_wf : s.rx.times.wf = true
  /-- The timestamp memory has `nedges + 1` slots once allocated (rule R51). -/
  times_size : s.rx.phase ≠ .unconf → s.rx.times.size = s.rx.cfg.nedges + 1
  /-- Every listed value is a clock reading (rule R29). -/
  readings : ∀ c ∈ s.rx.times.cells, isReading c.2 = true
  /-- The receiver's record is a PROTO record (rule R23). -/
  rx_cfg : s.rx.cfg = proto s.env.params s.rx.cfg.bits
  /-- The transmitter's record is a PROTO record (rule R23). -/
  tx_cfg : s.tx.cfg = proto s.env.params s.tx.cfg.bits
  /-- The transmitter's frequency is its record's (rules R23 and R41). -/
  tx_freq : s.tx.freq = s.tx.cfg.freq
  /-- The transmitter's gap is its record's (rules R23 and R41). -/
  tx_gap : s.tx.gap = s.tx.cfg.gap
  /-- The pulse memory holds at most `PT_CAP` pairs. -/
  tx_capacity : ∀ cap, s.env.params.ptCap = some cap → s.tx.pulses.length ≤ cap

/-! ### What the environment owes (rules R183, R210, R211, R214): IRB checks none of it -/

/-- No edge between expiry and counter reset (rules R183 c and d, R211). -/
def edgeInTime (s : State) : Bool := decide (s.rx.phase ≠ .fired)

/-- The timer fires only while armed and not before the deadline (rules R183 a and b). -/
def fireInTime (s : State) : Bool := decide (s.rx.phase = .armed ∧ s.rx.deadline ≤ s.env.now)

/-- The reading `t` follows the previous reading, if there is one, in modular order (rule R17): the time that has elapsed
from that one to this one, as `tdiff` counts it, is not negative (log entry 28). -/
def follows (t : Word) : Option Word → Bool
  | none => true
  | some prev => decide (0 ≤ tdiff t prev)

/-- The promise that the agent of `i` keeps when it issues `i` in state `s`, `prev` being the reading of the `EDGE` before,
if there was one. -/
def keepsPromise (prev : Option Word) (i : Instr) (s : State) : Bool :=
  match i with
  | .edge t => edgeInTime s && follows t prev
  | .fire => fireInTime s
  | .rxinit _ _ _ | .errfn _ | .close | .txinit _ | .append _ _ | .tx _ _ _ | .play | .decode
  | .docb _ _ _ _ => true

/-- The times of the inputs never decrease, from `lo` on (rule R17). -/
def timesInOrder : Nat → List Input → Bool
  | _, [] => true
  | lo, i :: rest => decide (lo ≤ i.time) && timesInOrder i.time rest

/-- The reading that an input carries: that of an `EDGE` delivered by the pin, and none of any other input. -/
def Input.reading : Input → Option Word
  | .rst _ => none
  | .word _ p w =>
    match decodeOn p w with
    | .ok (.edge t) => some t
    | .ok _ | .error _ => none

/-- The previous reading once the input `i` has been delivered, `prev` being the one before. -/
def latestReading (prev : Option Word) (i : Input) : Option Word := i.reading <|> prev

/-- Every reading among the inputs follows the one before it, the first of them `prev` (rule R17). The clock runs on over a
reset, so a reset assertion breaks no order. -/
def readingsInOrder : Option Word → List Input → Bool
  | _, [] => true
  | prev, i :: rest =>
    (match i.reading with
      | none => true
      | some t => follows t prev)
    && readingsInOrder (latestReading prev i) rest

/-- The readings of the block that is being captured stand in the order in which they were delivered, and while there is room
for another the newest of them is the previous reading `prev`: what `readingsInOrder` makes of the timestamp memory. -/
structure BlockInOrder (prev : Option Word) (s : State) : Prop where
  /-- No slot below the counter precedes the slot before it. -/
  slots_follow : ∀ i a b, i + 1 < s.rx.edge → s.rx.times.read i = .ok a → s.rx.times.read (i + 1) = .ok b →
    follows b (some a) = true
  /-- The newest slot holds the previous reading, until an edge is dropped. -/
  newest : s.rx.phase = .armed → s.rx.edge ≤ s.rx.cfg.nedges → ∀ a, s.rx.times.read (s.rx.edge - 1) = .ok a →
    prev = some a

/-! ### Constraints on parameters -/

/-- The longest nominal block of a variant, from its first to its last edge (rule R213). -/
def worstBlock (b : Variant) : Nat := 2400 + 1800 * b.bits

/-- What the link and the decoder owe a receiver of one variant (rules R9 and R210), microseconds. The spec has no values for
these, and IRB holds none of them: a claim gives them as an argument (log entry 29). -/
structure LinkTiming where
  /-- The least time from a block's first edge to that of a repeat block (rule R9). -/
  repeatGap  : Nat
  /-- The least time from a block's first edge to that of the next block, of whatever kind (rule R210). -/
  nextBlock  : Nat
  /-- The most time from an expiry to the end of the decode it starts (rule R210). -/
  decodeTime : Nat
  deriving DecidableEq, Repr

/-- The frame timeout is long enough and short enough (rule R210), for every lateness from 0 to `jitter`: measured from the
first edge, the earliest expiry comes after the last edge of the longest block, and the decode that the latest expiry starts
ends before the first edge of the next block. With the upper bound of rule R9. -/
def frameTimeoutOk (link : LinkTiming) (jitter : Nat) (b : Variant) (tblock : Nat) : Bool :=
  decide (worstBlock b < tblock) && decide (tblock + jitter + link.decodeTime < link.nextBlock)
    && decide (tblock < link.repeatGap)

/-- The constraints of rules R9 and R210 on one variant's parameters, with that of rule R212. -/
def variantParamsOk (link : LinkTiming) (jitter : Nat) (b : Variant) (p : VariantParams) : Bool :=
  frameTimeoutOk link jitter b p.tblock && decide (0 < p.freq.toInt)
    && decide (p.tblock + jitter < 2 ^ (Config.clkW - 1))

/-- The constraints of rules R9, R210 and R212: timeouts, frequencies, clock range, and a pulse memory that holds at least
the 21 pairs of the 20 bit variant. -/
def paramsOk (link : Variant → LinkTiming) (p : Params) : Bool :=
  ([.b12, .b15, .b20] : List Variant).all (fun b => variantParamsOk (link b) p.jitter b (p.of b))
    && (match p.ptCap with | none => true | some cap => decide (21 ≤ cap))

/-! ### Operands -/

/-- The operands of `TX` lie in the valid ranges of the variant (rules R81 and R160; `ext` is 0 where the variant has no
extra field, rule R129). -/
def fieldsInRange (b : Variant) (addr data ext : Word) : Bool :=
  match b with
  | .b12 => decide (data.toNat ≤ 0x7F) && decide (addr.toNat ≤ 0x1F) && ext == 0
  | .b15 => decide (data.toNat ≤ 0x7F) && decide (addr.toNat ≤ 0xFF) && ext == 0
  | .b20 => decide (data.toNat ≤ 0x7F) && decide (addr.toNat ≤ 0x1F) && decide (ext.toNat ≤ 0xFF)

/-- The operations of the receive families (rule R21): those of 40_edge_capture.md and 41_decode_dispatch.md. -/
def isReceive : Instr → Bool
  | .rxinit _ _ _ | .errfn _ | .close | .edge _ | .fire | .decode | .docb _ _ _ _ => true
  | .txinit _ | .append _ _ | .tx _ _ _ | .play => false

/-! ### The end of a run (rule R204) -/

/-- Nothing is owed by the receiver's timer or decoder. -/
def quiescent (s : State) : Bool := decide (s.rx.phase = .unconf ∨ s.rx.phase = .idle ∨ s.rx.phase = .closed)

/-- The run is over: nothing left to deliver, the receiver quiescent, no fault. -/
def runIsOver (s : State) : Bool := s.env.inbox.isEmpty && quiescent s && !s.faulted

end Sys2Proof.Machine
end

