-- ==== Sys2Proof/Certificates/Slice0/Obligations.lean ====
section
/-! DEFINITION. The statements for the provers. Each docstring names the rule of spec/ it formalises, or the sections it
rests on, and, where a clause rests on a decision that the spec marks as its own or on a choice of this model, says so. A
next state is written out as the old one with the changed fields, so each statement carries its frame. -/

open Sys2Proof Sys2Proof.Machine

/-! ### Words and the step -/

/-- R75: "word-to-operation and operation-to-word are inverse bijections between legal words and operations": the decoder
reads `i` from a word exactly when `i` is well formed and the word is `i`'s; and the fields that a format leaves unused
are zero in an operation's word, format by format. The word is the spec's decision D2, the rule its decision D33. -/
def Obligations.LegalWordsAndOperationsCorrespond : Prop :=
  (∀ (w : OpWord) (i : Instr), decodeWord w = .ok i ↔ (i.wf = true ∧ w = encode i)) ∧
  (∀ i ∈ [Instr.close, .play, .fire, .decode], fieldA (encode i) = 0 ∧ fieldB (encode i) = 0 ∧
    fieldC (encode i) = 0 ∧ fieldD (encode i) = 0) ∧
  (∀ a, ∀ i ∈ [Instr.errfn a, .txinit a, .edge a], fieldA (encode i) = a ∧ fieldB (encode i) = 0 ∧
    fieldC (encode i) = 0 ∧ fieldD (encode i) = 0) ∧
  (∀ a b, fieldA (encode (.append a b)) = a ∧ fieldB (encode (.append a b)) = b ∧
    fieldC (encode (.append a b)) = 0 ∧ fieldD (encode (.append a b)) = 0) ∧
  (∀ a b c, ∀ i ∈ [Instr.rxinit a b c, .tx a b c], fieldA (encode i) = a ∧ fieldB (encode i) = b ∧
    fieldC (encode i) = c ∧ fieldD (encode i) = 0) ∧
  (∀ a b c d, fieldA (encode (.docb a b c d)) = a ∧ fieldB (encode (.docb a b c d)) = b ∧
    fieldC (encode (.docb a b c d)) = c ∧ fieldD (encode (.docb a b c d)) = d)

/-- R72: the whole table of operation codes: for every code the operation it stands for, with its operands taken from the
fields in order, on the port of its agent; and no other code stands for anything. Decision D2. -/
def Obligations.OperationCodesAreThoseOfTheTable : Prop :=
  ∀ a b c d : Word,
    decodeOn .host (mkWord 0x01 a b c 0) = .ok (.rxinit a b c) ∧
    decodeOn .host (mkWord 0x02 a 0 0 0) = .ok (.errfn a) ∧
    decodeOn .host (mkWord 0x03 0 0 0 0) = .ok .close ∧
    decodeOn .host (mkWord 0x10 a 0 0 0) = .ok (.txinit a) ∧
    decodeOn .host (mkWord 0x11 a b 0 0) = .ok (.append a b) ∧
    decodeOn .host (mkWord 0x12 a b c 0) = .ok (.tx a b c) ∧
    decodeOn .host (mkWord 0x13 0 0 0 0) = .ok .play ∧
    decodeOn .pin (mkWord 0x80 a 0 0 0) = (if a.toNat < 2 ^ 30 then .ok (.edge a) else .error .badReading) ∧
    decodeOn .timer (mkWord 0x81 0 0 0 0) = .ok .fire ∧
    decodeOn .engine (mkWord 0x82 0 0 0 0) = .ok .decode ∧
    decodeOn .engine (mkWord 0x83 a b c d) = .ok (.docb a b c d) ∧
    ∀ (op : BitVec 8) (p : Port), op ∉ [0x01, 0x02, 0x03, 0x10, 0x11, 0x12, 0x13, 0x80, 0x81, 0x82, 0x83] →
      decodeOn p (mkWord op a b c d) = .error .reservedOp

/-- R74: a word that is no operation's (a reserved code, a non-zero unused field, an `EDGE` whose reading is out of range), or a
host code on an event port, or the reverse, is refused by the step; what follows such a step (`settle`) is the same state with
the word gone: no state changes and no event is emitted. Decision D33. -/
def Obligations.IllegalWordsAreRefusedAndChangeNothing : Prop :=
  ∀ (s : State) (T : Nat) (p : Port) (w : OpWord) (rest : List Input),
    s.faulted = false → s.env.inbox = .word T p w :: rest →
    (∀ i : Instr, ¬ (i.wf = true ∧ w = encode i ∧ (i.port = .host ↔ p = .host))) →
    (∃ why, step s = .refused (.illegalWord why)) ∧
      settle s (step s) = { s with env := { s.env with inbox := rest } }

/-- An operation's word on any port that is not its agent's, another event port among them, is refused as such and changes nothing
(60_exceptions.md section 5: "an operation word arriving on the wrong port is an illegal word"). That the three event ports are told
apart is DEDUCED (log entry 11). -/
def Obligations.WordsOnAWrongPortAreRefused : Prop :=
  ∀ (s : State) (T : Nat) (p : Port) (i : Instr) (rest : List Input),
    s.faulted = false → i.wf = true → p ≠ i.port → s.env.inbox = .word T p (encode i) :: rest →
    step s = .refused (.illegalWord .wrongPort) ∧
      settle s (step s) = { s with env := { s.env with inbox := rest } }

/-- The words that the spec's own examples write out, one for each operation (rules R92, R101, R104, R105, R120, R135,
R137, R151, R152, R160, R161; 95_test_vectors.md), decode to the operations they stand for. -/
def Obligations.ExampleWordsDecode : Prop :=
  decodeTableWord 136 0x010000000C000001000000020000000000 = some (.rxinit 12 0x100 0x200) ∧
  decodeTableWord 136 0x0200000300000000000000000000000000 = some (.errfn 0x300) ∧
  decodeTableWord 136 0x0300000000000000000000000000000000 = some .close ∧
  decodeTableWord 136 0x100000000C000000000000000000000000 = some (.txinit 12) ∧
  decodeTableWord 136 0x1100000960000002580000000000000000 = some (.append 2400 600) ∧
  decodeTableWord 136 0x12000000050000003A0000000000000000 = some (.tx 5 0x3A 0) ∧
  decodeTableWord 136 0x1300000000000000000000000000000000 = some .play ∧
  decodeTableWord 136 0x80000003E8000000000000000000000000 = some (.edge 1000) ∧
  decodeTableWord 136 0x8100000000000000000000000000000000 = some .fire ∧
  decodeTableWord 136 0x8200000000000000000000000000000000 = some .decode ∧
  decodeTableWord 136 0x83FFFFFFF9000000000000000000000000 = some (.docb (-7) 0 0 0) ∧
  decodeTableWord 136 0x8040000000000000000000000000000000 = none ∧
  decodeTableWord 136 0x8100000001000000000000000000000000 = none ∧
  decodeTableWord 136 0x0400000000000000000000000000000000 = none

/-- A step runs the decoded operation: when the next input is a well-formed operation's word on its agent's port, the step
is that operation performed in the state where the input is taken and its time is the present (rules R16, R17, R73). What
the step adds around `exec` is the model's choice (log entry 1). -/
def Obligations.StepPerformsTheDeliveredOperation : Prop :=
  ∀ (s : State) (T : Nat) (i : Instr) (rest : List Input),
    s.faulted = false → i.wf = true → s.env.inbox = .word T i.port (encode i) :: rest →
    step s = exec i { s with env := { s.env with now := T, inbox := rest } }

/-- R42: a run that has faulted has no continuation: every word is answered by a fault and `faulted` stays set; an
operation that answers a next state never changes `faulted`, and one that faults leaves it set (`settle`). That a step of a
faulted state answers a fault is the model's choice (log entry 5). -/
def Obligations.FaultedStaysFaulted : Prop :=
  (∀ (s : State) (T : Nat) (p : Port) (w : OpWord) (rest : List Input),
    s.faulted = true → s.env.inbox = .word T p w :: rest →
    step s = .fault .faultedRun ∧ (settle s (step s)).faulted = true) ∧
  (∀ (s : State) (f : Fault), step s = .fault f → (settle s (step s)).faulted = true) ∧
  (∀ (i : Instr) (s t : State), exec i s = .next t → t.faulted = s.faulted)

/-! ### Reset -/

/-- R39: its table of the values after reset, row by row. The seven fields that the table calls unspecified are not mentioned;
that no operation reads them too early is `Obligations.UnspecifiedFieldsAreNeverReadTooEarly`. Decision D25. -/
def Obligations.ResetLeavesTheTabledValues : Prop :=
  State.reset.rx.phase = .unconf ∧ State.reset.rx.edge = 0 ∧ State.reset.rx.errh = 0 ∧
  (∀ i, State.reset.rx.times.read i = .error .indexFault) ∧
  State.reset.tx.conf = false ∧ State.reset.tx.pulses = [] ∧ State.reset.faulted = false

/-- The reset input (70_reset_and_hazards.md section 1), asserted in any state whatever, a faulted one among them: the step answers a
state in which every piece of IRB's state is at its value after reset. The last clauses, that the inputs still to come, the
parameters and the two output logs stay, are the model's deduction (log entry 21): the spec does not say them. -/
def Obligations.ResetInputResetsFromAnyState : Prop :=
  ∀ (s : State) (T : Nat) (rest : List Input), s.env.inbox = .rst T :: rest →
    ∃ t, step s = .next t ∧
      t.rx.phase = .unconf ∧ t.rx.edge = 0 ∧ t.rx.errh = 0 ∧ (∀ i, t.rx.times.read i = .error .indexFault) ∧
      t.tx.conf = false ∧ t.tx.pulses = [] ∧ t.faulted = false ∧
      t.env = { s.env with now := T, inbox := rest } ∧ t.out = s.out

/-- No operation reads a field that reset leaves unspecified before an operation writes it (10_state.md section 5). The deadline is
read by none: with any other deadline every operation answers the same, the deadline apart. Until `RXINIT` constructs the
receiver its record, callback and arguments are read by none, and until `TXINIT` constructs the transmitter its record, frequency
and gap are not: with any others in their place the operation answers the same, those fields apart, and a construction answers the
very same, so that it writes them all. -/
def Obligations.UnspecifiedFieldsAreNeverReadTooEarly : Prop :=
  (∀ (i : Instr) (s : State) (d : Nat),
    (∀ t, exec i s = .next t →
      ∃ d', (d' = d ∨ d' = t.rx.deadline) ∧
        exec i { s with rx := { s.rx with deadline := d } } = .next { t with rx := { t.rx with deadline := d' } }) ∧
    (∀ f, exec i s = .fault f → exec i { s with rx := { s.rx with deadline := d } } = .fault f)) ∧
  (∀ (i : Instr) (s : State) (c : Cfg) (cb args : Word), s.rx.phase = .unconf →
    (∀ t, exec i s = .next t →
      (t.rx.phase = .unconf ∧ exec i { s with rx := { s.rx with cfg := c, cb := cb, args := args } } =
          .next { t with rx := { t.rx with cfg := c, cb := cb, args := args } }) ∨
      (t.rx.phase = .idle ∧ (∃ b x y, i = .rxinit b x y) ∧
        exec i { s with rx := { s.rx with cfg := c, cb := cb, args := args } } = .next t)) ∧
    (∀ f, exec i s = .fault f →
      exec i { s with rx := { s.rx with cfg := c, cb := cb, args := args } } = .fault f)) ∧
  (∀ (i : Instr) (s : State) (c : Cfg) (f g : Word), s.tx.conf = false →
    (∀ t, exec i s = .next t →
      (t.tx.conf = false ∧ exec i { s with tx := { s.tx with cfg := c, freq := f, gap := g } } =
          .next { t with tx := { t.tx with cfg := c, freq := f, gap := g } }) ∨
      (t.tx.conf = true ∧ (∃ b, i = .txinit b) ∧
        exec i { s with tx := { s.tx with cfg := c, freq := f, gap := g } } = .next t)) ∧
    (∀ e, exec i s = .fault e →
      exec i { s with tx := { s.tx with cfg := c, freq := f, gap := g } } = .fault e))

/-! ### Invariants and faults -/

/-- The reset state meets the invariant (10_state.md section 4, with the model's clauses of `Inv`). -/
def Obligations.ResetMeetsTheInvariant : Prop := Inv State.reset

/-- Every step keeps the invariant (10_state.md section 4, with the model's clauses of `Inv`): for every state that meets it,
whatever is delivered. -/
def Obligations.StepKeepsTheInvariant : Prop :=
  ∀ s t : State, Inv s → step s = .next t → Inv t

/-- From a state that meets the invariant, the only faults are the data race (an `EDGE` in FIRED) and the overflow of a bounded
pulse memory; in particular no operation reads an unwritten slot or an index outside the array (20_memory.md sections 1 and 3,
60_exceptions.md section 1). -/
def Obligations.OnlyRaceAndOverflowCanFault : Prop :=
  ∀ (i : Instr) (s : State) (f : Fault), Inv s → exec i s = .fault f →
    (f = .raceFault ∧ s.rx.phase = .fired ∧ ∃ t, i = .edge t) ∨
    (f = .txOverflow ∧ ∃ cap, s.env.params.ptCap = some cap ∧
      ((∃ m p, i = .append m p ∧ s.tx.pulses.length = cap) ∨
       (∃ a d e, i = .tx a d e ∧ cap < 1 + s.tx.cfg.bits.bits)))

/-- Under an environment that keeps its promise for the operation it delivers (60_exceptions.md section 3,
70_reset_and_hazards.md section 3), an unfaulted machine that meets the invariant, with the default unbounded pulse memory,
always answers a next state, and that state meets the invariant again. The promise of an edge takes in the order of readings after
any previous reading or none; the machine goes on without that part. -/
def Obligations.HonestEnvironmentNeverStopsTheMachine : Prop :=
  ∀ (s : State) (T : Nat) (i : Instr) (rest : List Input) (prev : Option Word),
    Inv s → s.faulted = false → s.env.params.ptCap = none → i.wf = true →
    s.env.inbox = delivery T i :: rest →
    keepsPromise prev i { s with env := { s.env with now := T, inbox := rest } } = true →
    ∃ t, step s = .next t ∧ Inv t ∧ t.faulted = false

/-- Readings delivered in modular order fill a block in order (00_scope.md section 5, on time in the model; 10_state.md section 4,
clause e). Under an environment whose
readings follow one another, every step keeps `BlockInOrder`, whatever is delivered, and what is still to come stays in order;
it holds after reset; and a clock that runs on by less than half its range keeps the promise. That the order is that of
`tdiff`, and that equal readings are in it, is DEDUCED (log entry 28). -/
def Obligations.ReadingsInOrderFillTheBlockInOrder : Prop :=
  (∀ (s t : State) (prev : Option Word) (i : Input) (rest : List Input),
    Inv s → BlockInOrder prev s → s.env.inbox = i :: rest → readingsInOrder prev (i :: rest) = true → step s = .next t →
    BlockInOrder (latestReading prev i) t ∧ readingsInOrder (latestReading prev i) t.env.inbox = true) ∧
  BlockInOrder none State.reset ∧
  (∀ T d : Nat, d < 2 ^ 29 → follows (readingAt (T + d)) (some (readingAt T)) = true)

/-! ### The capture machine -/

/-- R52: the access primitives of the timestamp memory, inside the array: a write stores the reading, the next read returns the
whole of it, every other slot reads as before and the array keeps its size. Decision D29. -/
def Obligations.MemoryReturnsWhatWasWritten : Prop :=
  ∀ (m : Memory) (i : Nat) (v : Word), i < m.size →
    ∃ m', m.write i v = .ok m' ∧ m'.size = m.size ∧ m'.read i = .ok v ∧ ∀ j, j ≠ i → m'.read j = m.read j

/-- An access outside the array is a fault, and so is a read of a slot of a fresh array (20_memory.md section 1); and a write keeps the memory's canonical form, so that memories that read alike in every slot are equal.
The canonical form is the model's choice (log entry 8). -/
def Obligations.MemoryFaultsAndStaysCanonical : Prop :=
  (∀ (m : Memory) (i : Nat) (v : Word), m.size ≤ i →
    m.read i = .error .indexFault ∧ m.write i v = .error .indexFault) ∧
  (∀ (n i : Nat), i < n → (Memory.fresh n).read i = .error .unwrittenRead) ∧
  (∀ (m m' : Memory) (i : Nat) (v : Word), m.wf = true → m.write i v = .ok m' → m'.wf = true) ∧
  (∀ m m' : Memory, m.wf = true → m'.wf = true → m.size = m'.size → (∀ i, m.read i = m'.read i) → m = m')

/-- R85: the three protocol records, over any values of the open parameters, and the defaults of those parameters. -/
def Obligations.ProtocolRecordsAreThoseOfTheTable : Prop :=
  (∀ p : Params,
    proto p .b12 = {
      bits := .b12, nedges := 26, tblock := p.p12.tblock, freq := p.p12.freq, gap := p.p12.gap,
      cmdW := 7, addrW := 5, extW := 0, cmdMax := 0x7F, addrMax := 0x1F, extMax := 0,
      thresh := 0, decode := .exemplar } ∧
    proto p .b15 = {
      bits := .b15, nedges := 32, tblock := p.p15.tblock, freq := p.p15.freq, gap := p.p15.gap,
      cmdW := 7, addrW := 8, extW := 0, cmdMax := 0x7F, addrMax := 0xFF, extMax := 0,
      thresh := 0, decode := .exemplar } ∧
    proto p .b20 = {
      bits := .b20, nedges := 42, tblock := p.p20.tblock, freq := p.p20.freq, gap := p.p20.gap,
      cmdW := 7, addrW := 5, extW := 8, cmdMax := 0x7F, addrMax := 0x1F, extMax := 0xFF,
      thresh := 0, decode := .exemplar }) ∧
  Params.default.p12 = { tblock := 28000, freq := 40000, gap := 0 } ∧
  Params.default.p15 = { tblock := 34000, freq := 40000, gap := 0 } ∧
  Params.default.p20 = { tblock := 40000, freq := 40000, gap := 0 }

/-- R101: `RXINIT` with a selector 12, 15 or 20 in UNCONF constructs the receiver: the record, the callback with its
arguments, an array of `nedges + 1` slots that hold no value, the counter 0, phase IDLE; the handler token and everything
else stay. The deadline, which R40 leaves unspecified, is not mentioned. In any other phase it raises
`ConfigError(REINIT)`, tested first, and in UNCONF any other selector raises `ConfigError(BAD_VARIANT)`; neither changes
IRB's state. REINIT is the spec's decision D24. -/
def Obligations.RxinitConstructsTheReceiverOrRefuses : Prop :=
  ∀ (bits cb args : Word) (s : State),
    encode (.rxinit bits cb args) = mkWord 0x01 bits cb args 0 ∧
    (s.rx.phase ≠ .unconf → exec (.rxinit bits cb args) s =
      .next { s with out := { s.out with errors := s.out.errors ++ [⟨.rxinit bits cb args, .reinit⟩] } }) ∧
    (s.rx.phase = .unconf → bits ≠ 12 → bits ≠ 15 → bits ≠ 20 → exec (.rxinit bits cb args) s =
      .next { s with out := { s.out with errors := s.out.errors ++ [⟨.rxinit bits cb args, .badVariant⟩] } }) ∧
    (∀ b : Variant, s.rx.phase = .unconf → bits = BitVec.ofNat 32 b.bits →
      ∃ t, exec (.rxinit bits cb args) s = .next t ∧
        t.rx.phase = .idle ∧ t.rx.edge = 0 ∧ t.rx.cfg = proto s.env.params b ∧ t.rx.cb = cb ∧ t.rx.args = args ∧
        t.rx.errh = s.rx.errh ∧
        (∀ i, i ≤ (proto s.env.params b).nedges → t.rx.times.read i = .error .unwrittenRead) ∧
        (∀ i, (proto s.env.params b).nedges < i → t.rx.times.read i = .error .indexFault) ∧
        t.tx = s.tx ∧ t.faulted = s.faulted ∧ t.env = s.env ∧ t.out = s.out)

/-- R102 and R107: `EDGE t` in every phase. In UNCONF and CLOSED nothing; in FIRED the race fault, which sets `faulted`; in IDLE and ARMED, while the
counter is at most `nedges`, the reading goes into the slot the counter names, every other slot reads as before, the counter
goes up by one, the phase is ARMED, and only the first edge of a block sets the deadline; above `nedges` the edge is
dropped. The premise is the invariant, which rules out states that no run reaches. RaceFault is the spec's decision D11. -/
def Obligations.EdgeRecordsDropsOrRaces : Prop :=
  ∀ (r : Word) (s : State), Inv s →
    encode (.edge r) = mkWord 0x80 r 0 0 0 ∧
    (s.rx.phase = .unconf ∨ s.rx.phase = .closed → exec (.edge r) s = .next s) ∧
    (s.rx.phase = .fired →
      exec (.edge r) s = .fault .raceFault ∧ (settle s (exec (.edge r) s)).faulted = true) ∧
    (s.rx.phase = .idle ∨ s.rx.phase = .armed → s.rx.edge ≤ s.rx.cfg.nedges →
      ∃ m, exec (.edge r) s = .next { s with rx := { s.rx with
            times := m, edge := s.rx.edge + 1, phase := .armed,
            deadline := if s.rx.edge = 0 then s.env.now + s.rx.cfg.tblock else s.rx.deadline } } ∧
        m.size = s.rx.times.size ∧ m.read s.rx.edge = .ok r ∧
        ∀ j, j ≠ s.rx.edge → m.read j = s.rx.times.read j) ∧
    (s.rx.phase = .idle ∨ s.rx.phase = .armed → s.rx.cfg.nedges < s.rx.edge → exec (.edge r) s = .next s)

/-- R103: a block of any number of edges. From IDLE, the first `nedges + 1` readings fill the slots in the order they were
delivered, the counter stops at `nedges + 1`, and the readings after those leave no trace; a block of more than `nedges` edges
is reported `OVERRUN` by the decode that follows the expiry. -/
def Obligations.BlockOfEdgesFillsSlotsInOrderAndSaturates : Prop :=
  ∀ (ts : List Word) (s : State), Inv s → s.rx.phase = .idle →
    ∃ t, execAll (ts.map Instr.edge) s = .next t ∧
      t.rx.edge = min ts.length (s.rx.cfg.nedges + 1) ∧
      (∀ j r, j ≤ s.rx.cfg.nedges → ts[j]? = some r → t.rx.times.read j = .ok r) ∧
      (∀ j, ts.length ≤ j → t.rx.times.read j = s.rx.times.read j) ∧
      t.rx.phase = (if ts = [] then .idle else .armed) ∧
      t.rx.cfg = s.rx.cfg ∧ t.rx.cb = s.rx.cb ∧ t.rx.args = s.rx.args ∧ t.rx.errh = s.rx.errh ∧
      t.tx = s.tx ∧ t.faulted = s.faulted ∧ t.env = s.env ∧ t.out = s.out ∧
      (s.rx.cfg.nedges < ts.length →
        ∃ u, execAll [.fire, .decode] t = .next u ∧ u.rx.phase = .idle ∧ u.rx.edge = 0 ∧
          u.out.events = s.out.events ++ (if s.rx.errh = 0 then [] else [.err s.rx.errh (-5)]))

/-- R104: `FIRE` in every phase: ARMED and IDLE go to FIRED (from IDLE it is the spurious expiry), the others stay; the counter,
the memory and everything else are untouched. Decisions D13 and D26. -/
def Obligations.FireHandsTheBlockToTheDecoder : Prop :=
  ∀ s : State,
    encode .fire = mkWord 0x81 0 0 0 0 ∧
    (s.rx.phase = .armed ∨ s.rx.phase = .idle →
      exec .fire s = .next { s with rx := { s.rx with phase := .fired } }) ∧
    (s.rx.phase = .fired ∨ s.rx.phase = .unconf ∨ s.rx.phase = .closed → exec .fire s = .next s)

/-- R105: `CLOSE` in every phase: nothing in UNCONF; else the phase becomes CLOSED and everything else keeps its value; it is
idempotent; and afterwards `EDGE`, `FIRE`, `DECODE` and `DOCB` change nothing and emit nothing, a pending decode among them, and
`RXINIT` is refused. Decision D22. -/
def Obligations.CloseDetachesTheReceiver : Prop :=
  ∀ s : State,
    encode .close = mkWord 0x03 0 0 0 0 ∧
    (s.rx.phase = .unconf → exec .close s = .next s) ∧
    (s.rx.phase ≠ .unconf →
      ∃ t, t = { s with rx := { s.rx with phase := .closed } } ∧ exec .close s = .next t ∧ exec .close t = .next t ∧
        (∀ r, exec (.edge r) t = .next t) ∧ exec .fire t = .next t ∧ exec .decode t = .next t ∧
        (∀ c a e h, exec (.docb c a e h) t = .next t) ∧
        (∀ b c a, exec (.rxinit b c a) t =
          .next { t with out := { t.out with errors := t.out.errors ++ [⟨.rxinit b c a, .reinit⟩] } }))

/-- After `CLOSE`, whatever receive operations follow, in any number and order: no event, no change of the receiver but of its
handler token, no change of the transmitter, and the receiver stays CLOSED (40_edge_capture.md section CLOSE, 95_test_vectors.md V8). -/
def Obligations.AfterCloseOnlySilence : Prop :=
  ∀ (ops : List Instr) (s : State), s.rx.phase = .closed → (∀ i ∈ ops, isReceive i = true) →
    ∃ t, execAll ops s = .next t ∧ t.rx = { s.rx with errh := t.rx.errh } ∧ t.out.events = s.out.events ∧
      t.tx = s.tx ∧ t.faulted = s.faulted ∧ t.env = s.env

/-- The complete phase transition table (40_edge_capture.md section Transitions): the phase after every operation that answers
a next state. -/
def Obligations.PhaseTransitionTable : Prop :=
  ∀ (i : Instr) (s t : State), Inv s → exec i s = .next t →
    t.rx.phase =
      match i, s.rx.phase with
      | .rxinit b _ _, .unconf => if b = 12 ∨ b = 15 ∨ b = 20 then .idle else .unconf
      | .edge _, .idle => .armed
      | .fire, .idle => .fired
      | .fire, .armed => .fired
      | .decode, .fired => .idle
      | .close, .idle => .closed
      | .close, .armed => .closed
      | .close, .fired => .closed
      | _, p => p

/-- The two orders of an edge and an expiry at the same instant in ARMED, both admitted (60_exceptions.md section 2): the edge
first is recorded in the ending block; the expiry first makes the edge a race fault. -/
def Obligations.EdgeAndExpiryInEitherOrder : Prop :=
  ∀ (r : Word) (s : State), Inv s → s.rx.phase = .armed → s.rx.edge ≤ s.rx.cfg.nedges →
    (∃ t, execAll [.edge r, .fire] s = .next t ∧ t.rx.phase = .fired ∧ t.rx.edge = s.rx.edge + 1 ∧
      t.rx.times.read s.rx.edge = .ok r) ∧
    execAll [.fire, .edge r] s = .fault .raceFault

/-! ### Decode -/

/-- R120: `DECODE`. Outside FIRED nothing. In FIRED the record's routine classifies the block without a fault; the counter becomes
0, the phase IDLE, the readings stay, and the result is dispatched under the record's threshold as one event at most. -/
def Obligations.DecodeClassifiesResetsAndDispatches : Prop :=
  ∀ s : State,
    encode .decode = mkWord 0x82 0 0 0 0 ∧ Instr.decode.port = .engine ∧
    (s.rx.phase ≠ .fired → exec .decode s = .next s) ∧
    (Inv s → s.rx.phase = .fired →
      ∃ r, runDecode s.rx.cfg s.rx.times s.rx.edge = .ok r ∧
        exec .decode s = .next { s with
          rx := { s.rx with edge := 0, phase := .idle },
          out := { s.out with events := s.out.events ++
            (if r.cmd.toInt ≥ s.rx.cfg.thresh.toInt then [.cb s.rx.cb r.cmd r.addr r.ext s.rx.args]
             else if s.rx.errh ≠ 0 then [.err s.rx.errh r.cmd] else []) } })

/-- R121, for the routine of the three exemplar records: (a) and (c) its answer depends on the readings below `n` only, and when
they can be read it never faults; (b) it answers a valid triple within the record's maxima or one of the seven codes, with 0 beside
a code; (d) overrun is tested first; (e) it compares readings only through `tdiff`: readings with the same differences are
classified alike. -/
def Obligations.DecodeRoutineKeepsItsContract : Prop :=
  ∀ (p : Params) (b : Variant) (m : Memory) (n : Nat),
    (∀ m' : Memory, (∀ i < n, m'.read i = m.read i) →
      runDecode (proto p b) m' n = runDecode (proto p b) m n) ∧
    ((∀ i < n, ∃ v, m.read i = .ok v) → ∃ r, runDecode (proto p b) m n = .ok r) ∧
    (∀ r, runDecode (proto p b) m n = .ok r →
      (∃ c a e, r = .valid c a e ∧ 0 ≤ c.toInt ∧ 0 ≤ a.toInt ∧ a.toInt ≤ (proto p b).addrMax ∧
        0 ≤ e.toInt ∧ e.toInt ≤ (proto p b).extMax) ∨
      (∃ k, r = .error k ∧ r.cmd = k.number ∧ k.number.toInt < 0 ∧ r.addr = 0 ∧ r.ext = 0)) ∧
    ((proto p b).nedges < n → runDecode (proto p b) m n = .ok (.error .overrun)) ∧
    (∀ (m' : Memory) (r r' : Nat → Word),
      (∀ i < n, m.read i = .ok (r i)) → (∀ i < n, m'.read i = .ok (r' i)) →
      (∀ i < n, ∀ j < n, tdiff (r i) (r j) = tdiff (r' i) (r' j)) →
      runDecode (proto p b) m n = runDecode (proto p b) m' n)

/-- R131 and R122: fewer edges than the expected count is `BADBLOCK`, an empty block among them, and more is `OVERRUN`, over any
memory whatever: no slot is read. Decision D13. -/
def Obligations.ShortBlocksAreBadAndLongBlocksOverrun : Prop :=
  ∀ (p : Params) (b : Variant) (m : Memory) (n : Nat),
    (n < (proto p b).nedges → runDecode (proto p b) m n = .ok (.error .badBlock)) ∧
    (n > (proto p b).nedges → runDecode (proto p b) m n = .ok (.error .overrun))

/-- R126: the exemplar routine on a block of exactly the expected count whose readings are `r`: the lead-in windows with their
exclusive limits, then the data bits, bit `k` of the packed value from the mark between readings `2 + 2k` and `3 + 2k`, then
the fields. Numbers are the spec's decision D7. -/
def Obligations.ExemplarReadsLeadInThenBits : Prop :=
  ∀ (p : Params) (b : Variant) (m : Memory) (n : Nat) (r : Nat → Word), (∀ i < n, m.read i = .ok (r i)) →
    (n > 2 + 2 * b.bits → runDecode (proto p b) m n = .ok (.error .overrun)) ∧
    (n < 2 + 2 * b.bits → runDecode (proto p b) m n = .ok (.error .badBlock)) ∧
    (n = 2 + 2 * b.bits →
      (¬ (1800 < tdiff (r 1) (r 0) ∧ tdiff (r 1) (r 0) < 3000) →
        runDecode (proto p b) m n = .ok (.error .badStart)) ∧
      (1800 < tdiff (r 1) (r 0) → tdiff (r 1) (r 0) < 3000 →
        ¬ (350 < tdiff (r 2) (r 1) ∧ tdiff (r 2) (r 1) < 1000) →
        runDecode (proto p b) m n = .ok (.error .badStart)) ∧
      (1800 < tdiff (r 1) (r 0) → tdiff (r 1) (r 0) < 3000 →
        350 < tdiff (r 2) (r 1) → tdiff (r 2) (r 1) < 1000 →
        ∃ v : Word, (∀ k, v.getLsbD k = (decide (k < b.bits) && decide (tdiff (r (3 + 2 * k)) (r (2 + 2 * k)) > 900))) ∧
          runDecode (proto p b) m n = .ok (unpack b v)))

/-- R128: the exemplar routine never returns `REPEAT` or `BADREP`, over any memory and count. Decision D17. -/
def Obligations.ExemplarNeverReportsRepeats : Prop :=
  ∀ (p : Params) (b : Variant) (m : Memory) (n : Nat) (k : ResultCode),
    runDecode (proto p b) m n = .ok (.error k) → k ≠ .repeatCode ∧ k ≠ .badRep

/-- Captured edges never fail the field checks (41_decode_dispatch.md section 2, `unpack`'s corner cases): whatever the memory and the
count, the exemplar routine reports neither `BADADDR` nor `BADDATA`. -/
def Obligations.CapturedEdgesNeverFailTheFieldChecks : Prop :=
  ∀ (p : Params) (b : Variant) (m : Memory) (n : Nat) (k : ResultCode),
    runDecode (proto p b) m n = .ok (.error k) → k ≠ .badAddr ∧ k ≠ .badData

/-- R134: what the routine does not check. A block of the expected count with a good lead-in always yields a valid triple; and two
such blocks whose data marks fall on the same sides of 900, whatever their widths otherwise, negative ones among them, and
whatever the spaces between them, yield the same. Decision D34. -/
def Obligations.OnlyLeadInAndMarksDecide : Prop :=
  ∀ (p : Params) (b : Variant) (m m' : Memory) (r r' : Nat → Word),
    (∀ i < 2 + 2 * b.bits, m.read i = .ok (r i)) → (∀ i < 2 + 2 * b.bits, m'.read i = .ok (r' i)) →
    1800 < tdiff (r 1) (r 0) → tdiff (r 1) (r 0) < 3000 → 350 < tdiff (r 2) (r 1) → tdiff (r 2) (r 1) < 1000 →
    1800 < tdiff (r' 1) (r' 0) → tdiff (r' 1) (r' 0) < 3000 → 350 < tdiff (r' 2) (r' 1) → tdiff (r' 2) (r' 1) < 1000 →
    (∀ k < b.bits, tdiff (r (3 + 2 * k)) (r (2 + 2 * k)) > 900 ↔ tdiff (r' (3 + 2 * k)) (r' (2 + 2 * k)) > 900) →
    ∃ c a e, runDecode (proto p b) m (2 + 2 * b.bits) = .ok (.valid c a e) ∧
      runDecode (proto p b) m' (2 + 2 * b.bits) = .ok (.valid c a e)

/-- R127: `unpack` in numbers, for any non-negative packed value of 31 bits: the topmost field is unmasked and range-checked, the
interior address of the 20 bit variant is masked. Decision D15. -/
def Obligations.UnpackExtractsAndChecksTheTopField : Prop :=
  ∀ v : Word, v.toNat < 2 ^ 31 →
    unpack .b12 v = (if v.toNat / 2 ^ 7 > 0x1F then .error .badAddr
      else .valid (BitVec.ofNat 32 (v.toNat % 2 ^ 7)) (BitVec.ofNat 32 (v.toNat / 2 ^ 7)) 0) ∧
    unpack .b15 v = (if v.toNat / 2 ^ 7 > 0xFF then .error .badAddr
      else .valid (BitVec.ofNat 32 (v.toNat % 2 ^ 7)) (BitVec.ofNat 32 (v.toNat / 2 ^ 7)) 0) ∧
    unpack .b20 v = (if v.toNat / 2 ^ 12 > 0xFF then .error .badData
      else .valid (BitVec.ofNat 32 (v.toNat % 2 ^ 7)) (BitVec.ofNat 32 (v.toNat / 2 ^ 7 % 2 ^ 5))
        (BitVec.ofNat 32 (v.toNat / 2 ^ 12)))

/-- R13: the time difference: it equals the elapsed time whenever that is below `2^29`, whatever the reading it starts from and
also across a wrap; it always lies in `[-2^29, 2^29)`; and it is the difference modulo `2^30`. `CLK_W = 30` is the spec's
decision D4. -/
def Obligations.TimeDifferenceIsElapsedTime : Prop :=
  (∀ T d : Nat, d < 2 ^ 29 → tdiff (readingAt (T + d)) (readingAt T) = d) ∧
  (∀ a b : Word, -(2 ^ 29) ≤ tdiff a b ∧ tdiff a b < 2 ^ 29) ∧
  (∀ a b : Word, tdiff a b = (a.toInt - b.toInt + 2 ^ 29) % 2 ^ 30 - 2 ^ 29)

/-- A block decodes the same when the clock starts elsewhere: adding one time to every edge, modulo the clock's range, changes no
classification (41_decode_dispatch.md section 2, the rule on clock wrap). -/
def Obligations.ClockOriginDoesNotMatter : Prop :=
  ∀ (p : Params) (b : Variant) (m m' : Memory) (n c : Nat) (e : Nat → Nat),
    (∀ i < n, m.read i = .ok (readingAt (e i))) → (∀ i < n, m'.read i = .ok (readingAt (e i + c))) →
    runDecode (proto p b) m n = runDecode (proto p b) m' n

/-- The round-trip law (41_decode_dispatch.md section 2, 95_test_vectors.md V4): for every variant, every field value in range and
every start time, the readings of the edges of the train that encodes the fields decode to them. -/
def Obligations.EncodedTrainDecodesToItsFields : Prop :=
  ∀ (p : Params) (b : Variant) (addr data ext : Word) (t0 : Nat) (m : Memory),
    fieldsInRange b addr data ext = true →
    (∀ j e, (edgesOf t0 (trainOf b (pack b addr data ext)))[j]? = some e → m.read j = .ok (readingAt e)) →
    runDecode (proto p b) m (2 + 2 * b.bits) = .ok (.valid data addr ext)

/-- Tolerance to latency (41_decode_dispatch.md section 2, 95_test_vectors.md 2.5): the round trip still holds when each reading is
late by a latency of its own and any two consecutive latencies differ by less than 250 microseconds. -/
def Obligations.RoundTripToleratesLatency : Prop :=
  ∀ (p : Params) (b : Variant) (addr data ext : Word) (t0 : Nat) (m : Memory) (late : Nat → Nat),
    fieldsInRange b addr data ext = true →
    (∀ j, j + 1 < 2 + 2 * b.bits → late (j + 1) < late j + 250 ∧ late j < late (j + 1) + 250) →
    (∀ j e, (edgesOf t0 (trainOf b (pack b addr data ext)))[j]? = some e → m.read j = .ok (readingAt (e + late j))) →
    runDecode (proto p b) m (2 + 2 * b.bits) = .ok (.valid data addr ext)

/-- The exact conditions of the tolerance (41_decode_dispatch.md section 2, 95_test_vectors.md 2.5): with readings late by latencies
of their own, consecutive ones less than `2^28` apart, the block still decodes to the transmitted fields exactly when the
lead-in mark's latencies differ by less than 600 either way, the lead-in space's by more than -250 and less than 400, those of
a 0 mark by at most 300 and those of a 1 mark by more than -300. -/
def Obligations.LatencyToleranceIsExact : Prop :=
  ∀ (p : Params) (b : Variant) (addr data ext : Word) (t0 : Nat) (m : Memory) (late : Nat → Nat),
    fieldsInRange b addr data ext = true →
    (∀ j, j + 1 < 2 + 2 * b.bits → late (j + 1) < late j + 2 ^ 28 ∧ late j < late (j + 1) + 2 ^ 28) →
    (∀ j e, (edgesOf t0 (trainOf b (pack b addr data ext)))[j]? = some e → m.read j = .ok (readingAt (e + late j))) →
    (runDecode (proto p b) m (2 + 2 * b.bits) = .ok (.valid data addr ext) ↔
      late 1 < late 0 + 600 ∧ late 0 < late 1 + 600 ∧ late 2 < late 1 + 400 ∧ late 1 < late 2 + 250 ∧
      ∀ k < b.bits,
        ((pack b addr data ext).getLsbD k = false → late (3 + 2 * k) ≤ late (2 + 2 * k) + 300) ∧
        ((pack b addr data ext).getLsbD k = true → late (2 + 2 * k) < late (3 + 2 * k) + 300))

/-- End to end (00_scope.md section 1, the two data flows; 95_test_vectors.md P1): transmit a command, hand the train over, let the
same train come back as edges from any start time, let the timer expire and decode: the player receives the train and the
callback the command, and nothing else is emitted. -/
def Obligations.LoopbackDeliversTheCommand : Prop :=
  ∀ (s : State) (addr data ext : Word) (t0 : Nat), Inv s → s.rx.phase = .idle → s.tx.conf = true →
    s.tx.cfg.bits = s.rx.cfg.bits → fieldsInRange s.rx.cfg.bits addr data ext = true →
    (∀ cap, s.env.params.ptCap = some cap → 1 + s.rx.cfg.bits.bits ≤ cap) →
    ∃ t1 edges t2 t3,
      execAll [.tx addr data ext, .play] s = .next t1 ∧
      expand t1 (.loopback t0) = some edges ∧ execAll edges t1 = .next t2 ∧
      execAll [.fire, .decode] t2 = .next t3 ∧
      t3.out.events = s.out.events ++
        [.txout (trainOf s.rx.cfg.bits (pack s.rx.cfg.bits addr data ext)) s.tx.freq s.tx.gap,
         .cb s.rx.cb data addr ext s.rx.args] ∧
      t3.out.errors = s.out.errors ∧ t3.rx.phase = .idle ∧ t3.rx.edge = 0

/-! ### Dispatch and handler -/

/-- R135 with R136, R138, R139 and R140: `DOCB` in every phase: nothing in UNCONF and CLOSED; else exactly one of the callback's event
(when `cmd >= thresh`, signed), the handler's event carrying `cmd` alone (when one is registered), or silence. It changes no
state. Decisions D16, D23, D26. -/
def Obligations.DocbDispatchesByThreshold : Prop :=
  ∀ (cmd addr ext thresh : Word) (s : State),
    encode (.docb cmd addr ext thresh) = mkWord 0x83 cmd addr ext thresh ∧
    (Instr.docb cmd addr ext thresh).port = .engine ∧
    (s.rx.phase = .unconf ∨ s.rx.phase = .closed → exec (.docb cmd addr ext thresh) s = .next s) ∧
    (s.rx.phase = .idle ∨ s.rx.phase = .armed ∨ s.rx.phase = .fired →
      (cmd.toInt ≥ thresh.toInt → exec (.docb cmd addr ext thresh) s = .next
        { s with out := { s.out with events := s.out.events ++ [.cb s.rx.cb cmd addr ext s.rx.args] } }) ∧
      (cmd.toInt < thresh.toInt → s.rx.errh ≠ 0 → exec (.docb cmd addr ext thresh) s = .next
        { s with out := { s.out with events := s.out.events ++ [.err s.rx.errh cmd] } }) ∧
      (cmd.toInt < thresh.toInt → s.rx.errh = 0 → exec (.docb cmd addr ext thresh) s = .next s))

/-- R78: the seven numbers, -1 downward in the order of the source's list. Decision D5. -/
def Obligations.ResultCodesAreMinusOneToMinusSeven : Prop :=
  ResultCode.repeatCode.number.toInt = -1 ∧ ResultCode.badStart.number.toInt = -2 ∧
  ResultCode.badBlock.number.toInt = -3 ∧ ResultCode.badRep.number.toInt = -4 ∧
  ResultCode.overrun.number.toInt = -5 ∧ ResultCode.badData.number.toInt = -6 ∧ ResultCode.badAddr.number.toInt = -7

/-- The sign convention at work (30_encoding.md section 2, 41_decode_dispatch.md section 3): every captured block reaches exactly one
channel: a valid triple the callback, whatever its command, 0 among them; a code the handler alone. -/
def Obligations.DecodeSendsTriplesToCallbackAndCodesToHandler : Prop :=
  ∀ s : State, Inv s → s.rx.phase = .fired →
    ∃ t, exec .decode s = .next t ∧
      ((∃ c a e, runDecode s.rx.cfg s.rx.times s.rx.edge = .ok (.valid c a e) ∧
          t.out.events = s.out.events ++ [.cb s.rx.cb c a e s.rx.args]) ∨
       (∃ k, runDecode s.rx.cfg s.rx.times s.rx.edge = .ok (.error k) ∧
          t.out.events = s.out.events ++ (if s.rx.errh = 0 then [] else [.err s.rx.errh k.number])))

/-- R137: `ERRFN h` in every phase replaces the handler token and nothing else; the very next dispatch below its threshold uses the
new token, and token 0 restores silence. Decision D23. -/
def Obligations.ErrfnReplacesTheHandlerAtOnce : Prop :=
  ∀ (h : Word) (s : State),
    encode (.errfn h) = mkWord 0x02 h 0 0 0 ∧
    exec (.errfn h) s = .next { s with rx := { s.rx with errh := h } } ∧
    (∀ cmd addr ext thresh : Word, s.rx.phase = .idle ∨ s.rx.phase = .armed ∨ s.rx.phase = .fired →
      cmd.toInt < thresh.toInt →
      ∃ t, execAll [.errfn h, .docb cmd addr ext thresh] s = .next t ∧
        t.out.events = s.out.events ++ (if h = 0 then [] else [.err h cmd]))

/-! ### Transmit -/

/-- R151: `TXINIT` with a selector 12, 15 or 20 and no transmitter yet constructs it: the record, its frequency and gap, an empty
pulse memory; the receiver and everything else stay. With a transmitter it raises `ConfigError(REINIT)`, tested first; any
other selector raises `ConfigError(BAD_VARIANT)`; neither changes IRB's state. REINIT is the spec's decision D24. -/
def Obligations.TxinitConstructsTheTransmitterOrRefuses : Prop :=
  ∀ (bits : Word) (s : State),
    encode (.txinit bits) = mkWord 0x10 bits 0 0 0 ∧
    (s.tx.conf = true → exec (.txinit bits) s =
      .next { s with out := { s.out with errors := s.out.errors ++ [⟨.txinit bits, .reinit⟩] } }) ∧
    (s.tx.conf = false → bits ≠ 12 → bits ≠ 15 → bits ≠ 20 → exec (.txinit bits) s =
      .next { s with out := { s.out with errors := s.out.errors ++ [⟨.txinit bits, .badVariant⟩] } }) ∧
    (∀ b : Variant, s.tx.conf = false → bits = BitVec.ofNat 32 b.bits →
      exec (.txinit bits) s = .next { s with tx := {
        conf := true, cfg := proto s.env.params b, freq := (proto s.env.params b).freq,
        gap := (proto s.env.params b).gap, pulses := [] } })

/-- R152 and R176: `APPEND`: before `TXINIT` it raises `ConfigError(NOT_CONSTRUCTED)`; else the pair, whatever its values, goes to the
end of the sequence, and everything else stays; only when `PT_CAP` is finite and the memory already holds that many pairs it
faults, which sets `faulted`. NOT_CONSTRUCTED is the spec's decision D24, the overflow its decision D21. -/
def Obligations.AppendAddsOnePairAtTheEnd : Prop :=
  ∀ (mark space : Word) (s : State),
    encode (.append mark space) = mkWord 0x11 mark space 0 0 ∧
    (s.tx.conf = false → exec (.append mark space) s =
      .next { s with out := { s.out with errors := s.out.errors ++ [⟨.append mark space, .notConstructed⟩] } }) ∧
    (s.tx.conf = true → (∀ cap, s.env.params.ptCap = some cap → s.tx.pulses.length < cap) →
      exec (.append mark space) s =
        .next { s with tx := { s.tx with pulses := s.tx.pulses ++ [⟨mark, space⟩] } }) ∧
    (s.tx.conf = true → s.env.params.ptCap = some s.tx.pulses.length →
      exec (.append mark space) s = .fault .txOverflow ∧ (settle s (exec (.append mark space) s)).faulted = true)

/-- `TX` (42_transmit.md section TX): before `TXINIT` it raises `ConfigError(NOT_CONSTRUCTED)`; else, whatever the memory held, it then holds exactly the
lead-in pair (2400, 600) and one pair for each bit of the packed value, least significant first, (1200, 600) for a 1 and
(600, 600) for a 0; everything else stays. The operands may be any: `pack` masks them. The last clause, that a `TX` whose train a
bounded memory cannot hold faults as a whole, is the model's deduction from the append primitive and its overflow (log
entry 14; 42_transmit.md section APPEND, 60_exceptions.md section 1). Decisions D6, D18, D19, D21. -/
def Obligations.TxBuildsExactlyOneTrain : Prop :=
  ∀ (addr data ext : Word) (s : State),
    encode (.tx addr data ext) = mkWord 0x12 addr data ext 0 ∧
    (s.tx.conf = false → exec (.tx addr data ext) s =
      .next { s with out := { s.out with errors := s.out.errors ++ [⟨.tx addr data ext, .notConstructed⟩] } }) ∧
    (s.tx.conf = true → (∀ cap, s.env.params.ptCap = some cap → 1 + s.tx.cfg.bits.bits ≤ cap) →
      ∃ ps, exec (.tx addr data ext) s = .next { s with tx := { s.tx with pulses := ps } } ∧
        ps.length = 1 + s.tx.cfg.bits.bits ∧ ps[0]? = some ⟨2400, 600⟩ ∧
        ∀ k < s.tx.cfg.bits.bits, ps[k + 1]? =
          some (if (pack s.tx.cfg.bits addr data ext).getLsbD k then ⟨1200, 600⟩ else ⟨600, 600⟩)) ∧
    (∀ cap, s.tx.conf = true → s.env.params.ptCap = some cap → cap < 1 + s.tx.cfg.bits.bits →
      exec (.tx addr data ext) s = .fault .txOverflow)

/-- R83: the packed value in numbers: each operand reduced to its field width, then placed; the extra field only in the 20 bit
variant. Decision D18. -/
def Obligations.PackMasksAndPlacesTheFields : Prop :=
  ∀ addr data ext : Word,
    (pack .b12 addr data ext).toNat = data.toNat % 2 ^ 7 + addr.toNat % 2 ^ 5 * 2 ^ 7 ∧
    (pack .b15 addr data ext).toNat = data.toNat % 2 ^ 7 + addr.toNat % 2 ^ 8 * 2 ^ 7 ∧
    (pack .b20 addr data ext).toNat = data.toNat % 2 ^ 7 + addr.toNat % 2 ^ 5 * 2 ^ 7 + ext.toNat % 2 ^ 8 * 2 ^ 12

/-- R161: `PLAY`: before `TXINIT` it raises `ConfigError(NOT_CONSTRUCTED)`; else one `TXOUT` event carries the whole sequence, the
frequency and the gap, and the sequence stays, so a second `PLAY` hands over the same. Decisions D20 and D24. -/
def Obligations.PlayHandsOverTheTrain : Prop :=
  ∀ s : State,
    encode .play = mkWord 0x13 0 0 0 0 ∧
    (s.tx.conf = false → exec .play s =
      .next { s with out := { s.out with errors := s.out.errors ++ [⟨.play, .notConstructed⟩] } }) ∧
    (s.tx.conf = true → exec .play s =
      .next { s with out := { s.out with events := s.out.events ++ [.txout s.tx.pulses s.tx.freq s.tx.gap] } })

/-- The shape and the durations of an encoded train (42_transmit.md section Properties of an encoded train): `1 + bits` pairs, every
space 600, the first mark 2400 and every other 600 or 1200, `2 + 2*bits` edges, a total of `3000 + 1200*bits + 600*ones(v)`
microseconds, and 600 less from the first edge to the last. -/
def Obligations.EncodedTrainHasTheDocumentedShape : Prop :=
  ∀ (b : Variant) (v : Word) (t0 : Nat),
    (trainOf b v).length = 1 + b.bits ∧
    (∀ q ∈ trainOf b v, q.space = 600) ∧
    (∃ q rest, trainOf b v = q :: rest ∧ q.mark = 2400 ∧ ∀ d ∈ rest, d.mark = 600 ∨ d.mark = 1200) ∧
    (edgesOf t0 (trainOf b v)).length = 2 + 2 * b.bits ∧
    trainLength (trainOf b v) = 3000 + 1200 * b.bits + 600 * ones v b.bits ∧
    (edgesOf t0 (trainOf b v))[0]? = some t0 ∧
    (edgesOf t0 (trainOf b v)).getLast? = some (t0 + trainLength (trainOf b v) - 600)

/-- The worst-case block time (70_reset_and_hazards.md section 3): no edge of an encoded train comes later than `2400 + 1800*bits` after
its first edge, the bound is reached when every data bit is 1, and parameters that meet the constraints of 00_scope.md section 3
have a longer timeout, which is also shorter than the minimum gap before a repeat block and, with the lateness and the decode's time
added, than the time to the next block. The spec has no values for these times of the link and the decoder, so they are an argument
(log entry 29); the default timeouts, frequencies and unbounded memory meet the constraints for every link that leaves the
timeouts room. `JITTER` has no default: the 0 of `Params.default` is the model's (log entry 3), and the last clause holds for every
bound of lateness that the clock range admits, so it does not rest on it. -/
def Obligations.TimeoutExceedsTheWorstBlock : Prop :=
  (∀ (b : Variant) (v : Word) (t0 e : Nat), e ∈ edgesOf t0 (trainOf b v) → t0 ≤ e ∧ e ≤ t0 + 2400 + 1800 * b.bits) ∧
  (∀ (b : Variant) (t0 : Nat), t0 + 2400 + 1800 * b.bits ∈ edgesOf t0 (trainOf b 0xFFFFFFFF)) ∧
  (∀ (link : Variant → LinkTiming) (p : Params) (b : Variant), paramsOk link p = true →
    2400 + 1800 * b.bits < (proto p b).tblock ∧ (proto p b).tblock < (link b).repeatGap ∧
    (proto p b).tblock + p.jitter + (link b).decodeTime < (link b).nextBlock) ∧
  (∀ (link : Variant → LinkTiming) (lateness : Nat), (∀ b, (proto Params.default b).tblock < (link b).repeatGap) →
    (∀ b, (proto Params.default b).tblock + lateness + (link b).decodeTime < (link b).nextBlock) →
    (∀ b, (proto Params.default b).tblock + lateness < 2 ^ 29) →
    paramsOk link { Params.default with jitter := lateness } = true)

/-- The frame timeout keeps blocks apart (70_reset_and_hazards.md section 3, on the frame timeout). In a receiver that is idle and meets the
invariant, under parameters that meet the constraints, the first edge of a block, performed at time `T`, sets a deadline after the
last edge of any train of the variant that begins then; and whenever the timer fires no later than `JITTER` after that deadline,
the decode it starts is over no later than the decode's time after the expiry, and the next block of whatever kind begins no
earlier than the link's least time after this one, the decode is over before that block's first edge; and the deadline itself lies before the first
edge of a repeat block. The times of the link and the decoder are an argument (log entry 29). -/
def Obligations.FrameTimeoutKeepsBlocksApart : Prop :=
  ∀ (link : Variant → LinkTiming) (s : State) (r : Word), Inv s → s.rx.phase = .idle → paramsOk link s.env.params = true →
    ∃ t, exec (.edge r) s = .next t ∧
      (∀ v : Word, ∀ e ∈ edgesOf s.env.now (trainOf s.rx.cfg.bits v), e < t.rx.deadline) ∧
      t.rx.deadline < s.env.now + (link s.rx.cfg.bits).repeatGap ∧
      ∀ fire done next : Nat, fire ≤ t.rx.deadline + s.env.params.jitter →
        done ≤ fire + (link s.rx.cfg.bits).decodeTime → s.env.now + (link s.rx.cfg.bits).nextBlock ≤ next → done < next

/-! ### The whole machine -/

/-- The writers of every register (10_state.md section 2, the register table): an operation that answers a next state changes a
register only if the table names it as that register's writer. The environment is changed by no operation. -/
def Obligations.RegistersChangeOnlyByTheirWriters : Prop :=
  ∀ (i : Instr) (s t : State), exec i s = .next t →
    (t.rx.phase ≠ s.rx.phase → (∃ b c a, i = .rxinit b c a) ∨ (∃ r, i = .edge r) ∨ i = .fire ∨ i = .decode ∨ i = .close) ∧
    (t.rx.edge ≠ s.rx.edge → (∃ b c a, i = .rxinit b c a) ∨ (∃ r, i = .edge r) ∨ i = .decode) ∧
    (t.rx.deadline ≠ s.rx.deadline → ∃ r, i = .edge r) ∧
    (t.rx.times ≠ s.rx.times → (∃ b c a, i = .rxinit b c a) ∨ (∃ r, i = .edge r)) ∧
    (t.rx.cfg ≠ s.rx.cfg ∨ t.rx.cb ≠ s.rx.cb ∨ t.rx.args ≠ s.rx.args → ∃ b c a, i = .rxinit b c a) ∧
    (t.rx.errh ≠ s.rx.errh → ∃ h, i = .errfn h) ∧
    (t.tx.conf ≠ s.tx.conf ∨ t.tx.cfg ≠ s.tx.cfg ∨ t.tx.freq ≠ s.tx.freq ∨ t.tx.gap ≠ s.tx.gap → ∃ b, i = .txinit b) ∧
    (t.tx.pulses ≠ s.tx.pulses → (∃ b, i = .txinit b) ∨ (∃ m p, i = .append m p) ∨ (∃ a d e, i = .tx a d e)) ∧
    t.faulted = s.faulted ∧ t.env = s.env

/-- R21: the receiver and the transmitter share no state. A receive operation writes no transmitter field and reads none: with any
other transmitter it answers the same, the transmitter apart; and the other way round. -/
def Obligations.ReceiverAndTransmitterShareNoState : Prop :=
  (∀ (i : Instr) (s : State) (x : Tx), isReceive i = true →
    (∀ t, exec i s = .next t → t.tx = s.tx ∧ exec i { s with tx := x } = .next { t with tx := x }) ∧
    (∀ f, exec i s = .fault f → exec i { s with tx := x } = .fault f)) ∧
  (∀ (i : Instr) (s : State) (x : Rx), isReceive i = false →
    (∀ t, exec i s = .next t → t.rx = s.rx ∧ exec i { s with rx := x } = .next { t with rx := x }) ∧
    (∀ f, exec i s = .fault f → exec i { s with rx := x } = .fault f))

/-- The configuration never changes for the lifetime of an instance (10_state.md section 3, 20_memory.md section 3): once constructed,
the record, the callback and its arguments, and the transmitter's record, frequency and gap are the same after every
operation, and the transmitter stays constructed. -/
def Obligations.ConfigurationIsFixedByConstruction : Prop :=
  ∀ (i : Instr) (s t : State), exec i s = .next t →
    (s.rx.phase ≠ .unconf → t.rx.phase ≠ .unconf ∧ t.rx.cfg = s.rx.cfg ∧ t.rx.cb = s.rx.cb ∧ t.rx.args = s.rx.args ∧
      t.rx.times.size = s.rx.times.size) ∧
    (s.tx.conf = true → t.tx.conf = true ∧ t.tx.cfg = s.tx.cfg ∧ t.tx.freq = s.tx.freq ∧ t.tx.gap = s.tx.gap)

/-- R172 and R94: a `ConfigError` is raised by `RXINIT`, `TXINIT`, `APPEND`, `TX` and `PLAY` only, under a reason that the operation
can have; it goes to the host with the refused operation, which changes no state, emits no event and does not set `faulted`;
the three reasons and their numbers. Decision D24 for the numbers and for the reasons 2 and 3. -/
def Obligations.ConfigErrorsChangeNothingElse : Prop :=
  (∀ (i : Instr) (s t : State), exec i s = .next t →
    t.out.errors = s.out.errors ∨
    (∃ r, t = { s with out := { s.out with errors := s.out.errors ++ [⟨i, r⟩] } } ∧
      ((((∃ b c a, i = .rxinit b c a ∧ (r = .badVariant → b ≠ 12 ∧ b ≠ 15 ∧ b ≠ 20)) ∨
          (∃ b, i = .txinit b ∧ (r = .badVariant → b ≠ 12 ∧ b ≠ 15 ∧ b ≠ 20))) ∧ (r = .badVariant ∨ r = .reinit)) ∨
       (((∃ m p, i = .append m p) ∨ (∃ a d e, i = .tx a d e) ∨ i = .play) ∧ r = .notConstructed)))) ∧
  ConfigReason.badVariant.number = 1 ∧ ConfigReason.reinit.number = 2 ∧ ConfigReason.notConstructed.number = 3

/-- Events leave one at a time and from three operations only (60_exceptions.md sections 4 and 5): `DECODE` and `DOCB` emit `CB` or `ERR`,
`PLAY` emits `TXOUT`; interrupt context and every other operation emit nothing, and what has left IRB is never taken back. -/
def Obligations.EventsComeOneAtATimeFromThreeOperations : Prop :=
  ∀ (i : Instr) (s t : State), exec i s = .next t →
    t.out.events = s.out.events ∨
    (∃ c a e, t.out.events = s.out.events ++ [.cb s.rx.cb c a e s.rx.args] ∧
      (i = .decode ∨ ∃ h, i = .docb c a e h)) ∨
    (∃ c, t.out.events = s.out.events ++ [.err s.rx.errh c] ∧ s.rx.errh ≠ 0 ∧
      (i = .decode ∨ ∃ a e h, i = .docb c a e h)) ∨
    (t.out.events = s.out.events ++ [.txout s.tx.pulses s.tx.freq s.tx.gap] ∧ i = .play)

/-- Reset is the only way to leave CLOSED, to discard a transmitter, to change a variant, or to clear `faulted`
(70_reset_and_hazards.md section 1), over every step, whatever it answers: the state an observer goes on from is `settle`. -/
def Obligations.OnlyResetUndoesConstruction : Prop :=
  ∀ (s : State), (∀ T rest, s.env.inbox ≠ .rst T :: rest) →
    (s.faulted = true → (settle s (step s)).faulted = true) ∧
    (∀ t, step s = .next t →
      (s.rx.phase = .closed → t.rx.phase = .closed) ∧
      (s.tx.conf = true → t.tx.conf = true ∧ t.tx.cfg = s.tx.cfg) ∧
      (s.rx.phase ≠ .unconf → t.rx.cfg = s.rx.cfg))

/-- Stale readings cannot be observed (20_memory.md section 3): `DECODE` in a state whose memory differs only in slots at or above the
counter answers the same, the memory apart. -/
def Obligations.StaleReadingsAreUnobservable : Prop :=
  ∀ (s : State) (m : Memory), Inv s → (∀ i < s.rx.edge, m.read i = s.rx.times.read i) →
    ∀ t, exec .decode s = .next t →
      exec .decode { s with rx := { s.rx with times := m } } = .next { t with rx := { t.rx with times := m } }
end

