-- ==== Sys2Proof/Laws/State.lean ====
section
/-! SUPPORT. One lemma for each field under each update of the state, true by unfolding, for `simp`. -/

namespace Sys2Proof.Machine

/-! ### setPhase -/

@[simp] theorem setPhase_rx_phase (s : State) (p : Phase) :
    (s.setPhase p).rx.phase = p := rfl

@[simp] theorem setPhase_rx_edge (s : State) (p : Phase) :
    (s.setPhase p).rx.edge = s.rx.edge := rfl

@[simp] theorem setPhase_rx_deadline (s : State) (p : Phase) :
    (s.setPhase p).rx.deadline = s.rx.deadline := rfl

@[simp] theorem setPhase_rx_times (s : State) (p : Phase) :
    (s.setPhase p).rx.times = s.rx.times := rfl

@[simp] theorem setPhase_rx_cfg (s : State) (p : Phase) :
    (s.setPhase p).rx.cfg = s.rx.cfg := rfl

@[simp] theorem setPhase_rx_cb (s : State) (p : Phase) :
    (s.setPhase p).rx.cb = s.rx.cb := rfl

@[simp] theorem setPhase_rx_args (s : State) (p : Phase) :
    (s.setPhase p).rx.args = s.rx.args := rfl

@[simp] theorem setPhase_rx_errh (s : State) (p : Phase) :
    (s.setPhase p).rx.errh = s.rx.errh := rfl

@[simp] theorem setPhase_tx (s : State) (p : Phase) :
    (s.setPhase p).tx = s.tx := rfl

@[simp] theorem setPhase_env (s : State) (p : Phase) :
    (s.setPhase p).env = s.env := rfl

@[simp] theorem setPhase_out (s : State) (p : Phase) :
    (s.setPhase p).out = s.out := rfl

@[simp] theorem setPhase_faulted (s : State) (p : Phase) :
    (s.setPhase p).faulted = s.faulted := rfl

/-! ### setEdge -/

@[simp] theorem setEdge_rx_phase (s : State) (n : Nat) :
    (s.setEdge n).rx.phase = s.rx.phase := rfl

@[simp] theorem setEdge_rx_edge (s : State) (n : Nat) :
    (s.setEdge n).rx.edge = n := rfl

@[simp] theorem setEdge_rx_deadline (s : State) (n : Nat) :
    (s.setEdge n).rx.deadline = s.rx.deadline := rfl

@[simp] theorem setEdge_rx_times (s : State) (n : Nat) :
    (s.setEdge n).rx.times = s.rx.times := rfl

@[simp] theorem setEdge_rx_cfg (s : State) (n : Nat) :
    (s.setEdge n).rx.cfg = s.rx.cfg := rfl

@[simp] theorem setEdge_rx_cb (s : State) (n : Nat) :
    (s.setEdge n).rx.cb = s.rx.cb := rfl

@[simp] theorem setEdge_rx_args (s : State) (n : Nat) :
    (s.setEdge n).rx.args = s.rx.args := rfl

@[simp] theorem setEdge_rx_errh (s : State) (n : Nat) :
    (s.setEdge n).rx.errh = s.rx.errh := rfl

@[simp] theorem setEdge_tx (s : State) (n : Nat) :
    (s.setEdge n).tx = s.tx := rfl

@[simp] theorem setEdge_env (s : State) (n : Nat) :
    (s.setEdge n).env = s.env := rfl

@[simp] theorem setEdge_out (s : State) (n : Nat) :
    (s.setEdge n).out = s.out := rfl

@[simp] theorem setEdge_faulted (s : State) (n : Nat) :
    (s.setEdge n).faulted = s.faulted := rfl

/-! ### setDeadline -/

@[simp] theorem setDeadline_rx_phase (s : State) (t : Nat) :
    (s.setDeadline t).rx.phase = s.rx.phase := rfl

@[simp] theorem setDeadline_rx_edge (s : State) (t : Nat) :
    (s.setDeadline t).rx.edge = s.rx.edge := rfl

@[simp] theorem setDeadline_rx_deadline (s : State) (t : Nat) :
    (s.setDeadline t).rx.deadline = t := rfl

@[simp] theorem setDeadline_rx_times (s : State) (t : Nat) :
    (s.setDeadline t).rx.times = s.rx.times := rfl

@[simp] theorem setDeadline_rx_cfg (s : State) (t : Nat) :
    (s.setDeadline t).rx.cfg = s.rx.cfg := rfl

@[simp] theorem setDeadline_rx_cb (s : State) (t : Nat) :
    (s.setDeadline t).rx.cb = s.rx.cb := rfl

@[simp] theorem setDeadline_rx_args (s : State) (t : Nat) :
    (s.setDeadline t).rx.args = s.rx.args := rfl

@[simp] theorem setDeadline_rx_errh (s : State) (t : Nat) :
    (s.setDeadline t).rx.errh = s.rx.errh := rfl

@[simp] theorem setDeadline_tx (s : State) (t : Nat) :
    (s.setDeadline t).tx = s.tx := rfl

@[simp] theorem setDeadline_env (s : State) (t : Nat) :
    (s.setDeadline t).env = s.env := rfl

@[simp] theorem setDeadline_out (s : State) (t : Nat) :
    (s.setDeadline t).out = s.out := rfl

@[simp] theorem setDeadline_faulted (s : State) (t : Nat) :
    (s.setDeadline t).faulted = s.faulted := rfl

/-! ### setTimes -/

@[simp] theorem setTimes_rx_phase (s : State) (m : Memory) :
    (s.setTimes m).rx.phase = s.rx.phase := rfl

@[simp] theorem setTimes_rx_edge (s : State) (m : Memory) :
    (s.setTimes m).rx.edge = s.rx.edge := rfl

@[simp] theorem setTimes_rx_deadline (s : State) (m : Memory) :
    (s.setTimes m).rx.deadline = s.rx.deadline := rfl

@[simp] theorem setTimes_rx_times (s : State) (m : Memory) :
    (s.setTimes m).rx.times = m := rfl

@[simp] theorem setTimes_rx_cfg (s : State) (m : Memory) :
    (s.setTimes m).rx.cfg = s.rx.cfg := rfl

@[simp] theorem setTimes_rx_cb (s : State) (m : Memory) :
    (s.setTimes m).rx.cb = s.rx.cb := rfl

@[simp] theorem setTimes_rx_args (s : State) (m : Memory) :
    (s.setTimes m).rx.args = s.rx.args := rfl

@[simp] theorem setTimes_rx_errh (s : State) (m : Memory) :
    (s.setTimes m).rx.errh = s.rx.errh := rfl

@[simp] theorem setTimes_tx (s : State) (m : Memory) :
    (s.setTimes m).tx = s.tx := rfl

@[simp] theorem setTimes_env (s : State) (m : Memory) :
    (s.setTimes m).env = s.env := rfl

@[simp] theorem setTimes_out (s : State) (m : Memory) :
    (s.setTimes m).out = s.out := rfl

@[simp] theorem setTimes_faulted (s : State) (m : Memory) :
    (s.setTimes m).faulted = s.faulted := rfl

/-! ### setErrh -/

@[simp] theorem setErrh_rx_phase (s : State) (h : Word) :
    (s.setErrh h).rx.phase = s.rx.phase := rfl

@[simp] theorem setErrh_rx_edge (s : State) (h : Word) :
    (s.setErrh h).rx.edge = s.rx.edge := rfl

@[simp] theorem setErrh_rx_deadline (s : State) (h : Word) :
    (s.setErrh h).rx.deadline = s.rx.deadline := rfl

@[simp] theorem setErrh_rx_times (s : State) (h : Word) :
    (s.setErrh h).rx.times = s.rx.times := rfl

@[simp] theorem setErrh_rx_cfg (s : State) (h : Word) :
    (s.setErrh h).rx.cfg = s.rx.cfg := rfl

@[simp] theorem setErrh_rx_cb (s : State) (h : Word) :
    (s.setErrh h).rx.cb = s.rx.cb := rfl

@[simp] theorem setErrh_rx_args (s : State) (h : Word) :
    (s.setErrh h).rx.args = s.rx.args := rfl

@[simp] theorem setErrh_rx_errh (s : State) (h : Word) :
    (s.setErrh h).rx.errh = h := rfl

@[simp] theorem setErrh_tx (s : State) (h : Word) :
    (s.setErrh h).tx = s.tx := rfl

@[simp] theorem setErrh_env (s : State) (h : Word) :
    (s.setErrh h).env = s.env := rfl

@[simp] theorem setErrh_out (s : State) (h : Word) :
    (s.setErrh h).out = s.out := rfl

@[simp] theorem setErrh_faulted (s : State) (h : Word) :
    (s.setErrh h).faulted = s.faulted := rfl

/-! ### constructRx -/

@[simp] theorem constructRx_rx_phase (s : State) (c : Cfg) (cb args : Word) :
    (s.constructRx c cb args).rx.phase = .idle := rfl

@[simp] theorem constructRx_rx_edge (s : State) (c : Cfg) (cb args : Word) :
    (s.constructRx c cb args).rx.edge = 0 := rfl

@[simp] theorem constructRx_rx_deadline (s : State) (c : Cfg) (cb args : Word) :
    (s.constructRx c cb args).rx.deadline = s.rx.deadline := rfl

@[simp] theorem constructRx_rx_times (s : State) (c : Cfg) (cb args : Word) :
    (s.constructRx c cb args).rx.times = Memory.fresh (c.nedges + 1) := rfl

@[simp] theorem constructRx_rx_cfg (s : State) (c : Cfg) (cb args : Word) :
    (s.constructRx c cb args).rx.cfg = c := rfl

@[simp] theorem constructRx_rx_cb (s : State) (c : Cfg) (cb args : Word) :
    (s.constructRx c cb args).rx.cb = cb := rfl

@[simp] theorem constructRx_rx_args (s : State) (c : Cfg) (cb args : Word) :
    (s.constructRx c cb args).rx.args = args := rfl

@[simp] theorem constructRx_rx_errh (s : State) (c : Cfg) (cb args : Word) :
    (s.constructRx c cb args).rx.errh = s.rx.errh := rfl

@[simp] theorem constructRx_tx (s : State) (c : Cfg) (cb args : Word) :
    (s.constructRx c cb args).tx = s.tx := rfl

@[simp] theorem constructRx_env (s : State) (c : Cfg) (cb args : Word) :
    (s.constructRx c cb args).env = s.env := rfl

@[simp] theorem constructRx_out (s : State) (c : Cfg) (cb args : Word) :
    (s.constructRx c cb args).out = s.out := rfl

@[simp] theorem constructRx_faulted (s : State) (c : Cfg) (cb args : Word) :
    (s.constructRx c cb args).faulted = s.faulted := rfl

/-! ### setPulses -/

@[simp] theorem setPulses_rx (s : State) (ps : List Pair) :
    (s.setPulses ps).rx = s.rx := rfl

@[simp] theorem setPulses_tx_conf (s : State) (ps : List Pair) :
    (s.setPulses ps).tx.conf = s.tx.conf := rfl

@[simp] theorem setPulses_tx_cfg (s : State) (ps : List Pair) :
    (s.setPulses ps).tx.cfg = s.tx.cfg := rfl

@[simp] theorem setPulses_tx_freq (s : State) (ps : List Pair) :
    (s.setPulses ps).tx.freq = s.tx.freq := rfl

@[simp] theorem setPulses_tx_gap (s : State) (ps : List Pair) :
    (s.setPulses ps).tx.gap = s.tx.gap := rfl

@[simp] theorem setPulses_tx_pulses (s : State) (ps : List Pair) :
    (s.setPulses ps).tx.pulses = ps := rfl

@[simp] theorem setPulses_env (s : State) (ps : List Pair) :
    (s.setPulses ps).env = s.env := rfl

@[simp] theorem setPulses_out (s : State) (ps : List Pair) :
    (s.setPulses ps).out = s.out := rfl

@[simp] theorem setPulses_faulted (s : State) (ps : List Pair) :
    (s.setPulses ps).faulted = s.faulted := rfl

/-! ### constructTx -/

@[simp] theorem constructTx_rx (s : State) (c : Cfg) :
    (s.constructTx c).rx = s.rx := rfl

@[simp] theorem constructTx_tx_conf (s : State) (c : Cfg) :
    (s.constructTx c).tx.conf = true := rfl

@[simp] theorem constructTx_tx_cfg (s : State) (c : Cfg) :
    (s.constructTx c).tx.cfg = c := rfl

@[simp] theorem constructTx_tx_freq (s : State) (c : Cfg) :
    (s.constructTx c).tx.freq = c.freq := rfl

@[simp] theorem constructTx_tx_gap (s : State) (c : Cfg) :
    (s.constructTx c).tx.gap = c.gap := rfl

@[simp] theorem constructTx_tx_pulses (s : State) (c : Cfg) :
    (s.constructTx c).tx.pulses = [] := rfl

@[simp] theorem constructTx_env (s : State) (c : Cfg) :
    (s.constructTx c).env = s.env := rfl

@[simp] theorem constructTx_out (s : State) (c : Cfg) :
    (s.constructTx c).out = s.out := rfl

@[simp] theorem constructTx_faulted (s : State) (c : Cfg) :
    (s.constructTx c).faulted = s.faulted := rfl

/-! ### emit -/

@[simp] theorem emit_rx (s : State) (e : Event) :
    (s.emit e).rx = s.rx := rfl

@[simp] theorem emit_tx (s : State) (e : Event) :
    (s.emit e).tx = s.tx := rfl

@[simp] theorem emit_env (s : State) (e : Event) :
    (s.emit e).env = s.env := rfl

@[simp] theorem emit_out_events (s : State) (e : Event) :
    (s.emit e).out.events = s.out.events ++ [e] := rfl

@[simp] theorem emit_out_errors (s : State) (e : Event) :
    (s.emit e).out.errors = s.out.errors := rfl

@[simp] theorem emit_faulted (s : State) (e : Event) :
    (s.emit e).faulted = s.faulted := rfl

/-! ### returnError -/

@[simp] theorem returnError_rx (s : State) (op : Instr) (r : ConfigReason) :
    (s.returnError op r).rx = s.rx := rfl

@[simp] theorem returnError_tx (s : State) (op : Instr) (r : ConfigReason) :
    (s.returnError op r).tx = s.tx := rfl

@[simp] theorem returnError_env (s : State) (op : Instr) (r : ConfigReason) :
    (s.returnError op r).env = s.env := rfl

@[simp] theorem returnError_out_events (s : State) (op : Instr) (r : ConfigReason) :
    (s.returnError op r).out.events = s.out.events := rfl

@[simp] theorem returnError_out_errors (s : State) (op : Instr) (r : ConfigReason) :
    (s.returnError op r).out.errors = s.out.errors ++ [{ op := op, reason := r }] := rfl

@[simp] theorem returnError_faulted (s : State) (op : Instr) (r : ConfigReason) :
    (s.returnError op r).faulted = s.faulted := rfl

/-! ### Inputs, reset, stops -/

@[simp] theorem assertReset_rx (s : State) :
    (assertReset s).rx = Rx.reset s.env.params := rfl

@[simp] theorem assertReset_tx (s : State) :
    (assertReset s).tx = Tx.reset s.env.params := rfl

@[simp] theorem assertReset_faulted (s : State) :
    (assertReset s).faulted = false := rfl

@[simp] theorem assertReset_env (s : State) :
    (assertReset s).env = s.env := rfl

@[simp] theorem assertReset_out (s : State) :
    (assertReset s).out = s.out := rfl

@[simp] theorem markFaulted_rx (s : State) :
    s.markFaulted.rx = s.rx := rfl

@[simp] theorem markFaulted_tx (s : State) :
    s.markFaulted.tx = s.tx := rfl

@[simp] theorem markFaulted_faulted (s : State) :
    s.markFaulted.faulted = true := rfl

@[simp] theorem markFaulted_env (s : State) :
    s.markFaulted.env = s.env := rfl

@[simp] theorem markFaulted_out (s : State) :
    s.markFaulted.out = s.out := rfl

@[simp] theorem dropInput_rx (s : State) :
    (dropInput s).rx = s.rx := rfl

@[simp] theorem dropInput_tx (s : State) :
    (dropInput s).tx = s.tx := rfl

@[simp] theorem dropInput_faulted (s : State) :
    (dropInput s).faulted = s.faulted := rfl

@[simp] theorem dropInput_env_now (s : State) :
    (dropInput s).env.now = s.env.now := rfl

@[simp] theorem dropInput_env_inbox (s : State) :
    (dropInput s).env.inbox = s.env.inbox.tail := rfl

@[simp] theorem dropInput_env_params (s : State) :
    (dropInput s).env.params = s.env.params := rfl

@[simp] theorem dropInput_out (s : State) :
    (dropInput s).out = s.out := rfl

@[simp] theorem putWord_rx (s : State) (w : OpWord) :
    (putWord s w).rx = s.rx := rfl

@[simp] theorem putWord_tx (s : State) (w : OpWord) :
    (putWord s w).tx = s.tx := rfl

@[simp] theorem putWord_faulted (s : State) (w : OpWord) :
    (putWord s w).faulted = s.faulted := rfl

@[simp] theorem putWord_env_now (s : State) (w : OpWord) :
    (putWord s w).env.now = s.env.now := rfl

@[simp] theorem putWord_env_inbox (s : State) (w : OpWord) :
    (putWord s w).env.inbox = .word s.env.now (portOfWord w) w :: s.env.inbox := rfl

@[simp] theorem putWord_env_params (s : State) (w : OpWord) :
    (putWord s w).env.params = s.env.params := rfl

@[simp] theorem putWord_out (s : State) (w : OpWord) :
    (putWord s w).out = s.out := rfl

end Sys2Proof.Machine
end

