-- ==== Sys2Proof/Laws/Memory.lean ====
section
/-! SUPPORT. The timestamp memory: a read after a write, and that every operation on it keeps the canonical form. -/

namespace Sys2Proof.Machine

theorem lookup_insert_same (i : Nat) (v : Word) (cs : List (Nat × Word)) :
    lookupCell i (insertCell i v cs) = some v := by
  induction cs with
  | nil => simp [insertCell, lookupCell]
  | cons c cs ih =>
    obtain ⟨j, w⟩ := c
    by_cases h1 : i < j
    · simp [insertCell, lookupCell, h1]
    · by_cases h2 : i = j
      · simp [insertCell, lookupCell, h2]
      · simp [insertCell, lookupCell, h1, h2, ih]

theorem lookup_insert_other {i k : Nat} (h : k ≠ i) (v : Word) (cs : List (Nat × Word)) :
    lookupCell k (insertCell i v cs) = lookupCell k cs := by
  induction cs with
  | nil => simp [insertCell, lookupCell, h]
  | cons c cs ih =>
    obtain ⟨j, w⟩ := c
    by_cases h1 : i < j
    · simp [insertCell, lookupCell, h1, h]
    · by_cases h2 : i = j
      · subst h2; simp [insertCell, lookupCell, h]
      · simp [insertCell, lookupCell, h1, h2, ih]

theorem mem_insert {i : Nat} {v : Word} {cs : List (Nat × Word)} {c : Nat × Word}
    (h : c ∈ insertCell i v cs) : c = (i, v) ∨ c ∈ cs := by
  induction cs with
  | nil => simpa [insertCell] using h
  | cons d cs ih =>
    obtain ⟨j, w⟩ := d
    by_cases h1 : i < j
    · simpa [insertCell, h1] using h
    · by_cases h2 : i = j
      · simp only [insertCell, h2, lt_irrefl, if_false, if_true, List.mem_cons] at h ⊢
        tauto
      · simp only [insertCell, h1, h2, if_false, List.mem_cons] at h ⊢
        rcases h with h | h
        · exact .inr (.inl h)
        · rcases ih h with h | h
          · exact .inl h
          · exact .inr (.inr h)

theorem mem_of_lookup {i : Nat} {v : Word} {cs : List (Nat × Word)}
    (h : lookupCell i cs = some v) : (i, v) ∈ cs := by
  induction cs with
  | nil => simp [lookupCell] at h
  | cons c cs ih =>
    obtain ⟨j, w⟩ := c
    by_cases h1 : i = j
    · simp_all [lookupCell]
    · simp only [lookupCell, h1, if_false] at h
      exact List.mem_cons_of_mem _ (ih h)

theorem insert_rises {size i : Nat} (hi : i < size) (v : Word) {lo : Nat} {cs : List (Nat × Word)}
    (hlo : lo ≤ i) (h : cellsRise size lo cs = true) : cellsRise size lo (insertCell i v cs) = true := by
  induction cs generalizing lo with
  | nil => simp [insertCell, cellsRise, hi, hlo]
  | cons c cs ih =>
    obtain ⟨j, w⟩ := c
    simp only [cellsRise, Bool.and_eq_true, decide_eq_true_eq] at h
    obtain ⟨⟨hj, hjs⟩, ht⟩ := h
    by_cases h1 : i < j
    · simp [insertCell, cellsRise, h1, hi, hlo, hjs, ht, Nat.succ_le_of_lt h1]
    · by_cases h2 : i = j
      · subst h2; simp [insertCell, cellsRise, hi, hlo, ht]
      · simp [insertCell, cellsRise, h1, h2, hj, hjs, ih (lo := j + 1) (by omega) ht]

/-- What a write does: inside the array the slot is set and nothing else; outside it faults. -/
theorem write_cases {m m' : Memory} {i : Nat} {v : Word} (h : m.write i v = .ok m') :
    i < m.size ∧ m' = { m with cells := insertCell i v m.cells } := by
  unfold Memory.write at h
  split at h
  · exact ⟨‹_›, by simpa using h.symm⟩
  · cases h

theorem write_of_lt {m : Memory} {i : Nat} (h : i < m.size) (v : Word) :
    m.write i v = .ok { m with cells := insertCell i v m.cells } := by
  simp [Memory.write, h]

theorem write_size {m m' : Memory} {i : Nat} {v : Word} (h : m.write i v = .ok m') : m'.size = m.size := by
  obtain ⟨-, rfl⟩ := write_cases h; rfl

/-- A read answers a value exactly inside the array and where one is listed. -/
theorem read_eq_ok {m : Memory} {i : Nat} {v : Word} :
    m.read i = .ok v ↔ i < m.size ∧ lookupCell i m.cells = some v := by
  unfold Memory.read
  split
  · cases hc : lookupCell i m.cells <;> simp_all
  · simp_all

theorem read_write_same {m m' : Memory} {i : Nat} {v : Word} (h : m.write i v = .ok m') :
    m'.read i = .ok v := by
  obtain ⟨hi, rfl⟩ := write_cases h
  exact read_eq_ok.2 ⟨hi, lookup_insert_same i v m.cells⟩

theorem read_write_other {m m' : Memory} {i k : Nat} {v : Word} (h : m.write i v = .ok m') (hk : k ≠ i) :
    m'.read k = m.read k := by
  obtain ⟨-, rfl⟩ := write_cases h
  simp [Memory.read, lookup_insert_other hk]

theorem holds_write_same {m m' : Memory} {i : Nat} {v : Word} (h : m.write i v = .ok m') :
    m'.holds i = true := by
  obtain ⟨-, rfl⟩ := write_cases h
  simp [Memory.holds, lookup_insert_same]

theorem holds_write_other {m m' : Memory} {i k : Nat} {v : Word} (h : m.write i v = .ok m') (hk : k ≠ i) :
    m'.holds k = m.holds k := by
  obtain ⟨-, rfl⟩ := write_cases h
  simp [Memory.holds, lookup_insert_other hk]

/-- A slot inside the array that holds a value can be read. -/
theorem read_of_holds {m : Memory} {i : Nat} (hi : i < m.size) (h : m.holds i = true) :
    ∃ v, m.read i = .ok v := by
  obtain ⟨v, hv⟩ := Option.isSome_iff_exists.1 h
  exact ⟨v, read_eq_ok.2 ⟨hi, hv⟩⟩

/-- The write keeps the canonical form. -/
theorem write_keeps_wf {m m' : Memory} {i : Nat} {v : Word} (h : m.write i v = .ok m') (hm : m.wf = true) :
    m'.wf = true := by
  obtain ⟨hi, rfl⟩ := write_cases h
  exact insert_rises hi v (Nat.zero_le _) hm

/-- A fresh array has the canonical form. -/
@[simp] theorem fresh_wf (n : Nat) : (Memory.fresh n).wf = true := rfl

@[simp] theorem fresh_size (n : Nat) : (Memory.fresh n).size = n := rfl

@[simp] theorem fresh_cells (n : Nat) : (Memory.fresh n).cells = [] := rfl

@[simp] theorem fresh_holds (n i : Nat) : (Memory.fresh n).holds i = false := rfl

/-- The memory of the reset state has the canonical form. -/
theorem reset_times_wf (p : Params) : (Rx.reset p).times.wf = true := rfl

end Sys2Proof.Machine
end

