-- ==== Sys2Proof/Laws/Ops.lean ====
section
/-! SUPPORT. One lemma for each shared operation that says everything it can do. -/

namespace Sys2Proof.Machine

/-! ### Recording an edge -/

/-- The state after recording `t` in memory `m`. -/
theorem recordEdge_cases {t : Word} {s s' : State} (h : recordEdge t s = .ok s') :
    ∃ m, s.rx.times.write s.rx.edge t = .ok m ∧
      ((s.rx.edge = 0 ∧
          s' = (((s.setTimes m).setPhase .armed).setDeadline (s.env.now + s.rx.cfg.tblock)).setEdge 1) ∨
        (s.rx.edge ≠ 0 ∧ s' = (s.setTimes m).setEdge (s.rx.edge + 1))) := by
  unfold recordEdge at h
  split at h
  · cases h
  · rename_i m hm
    split at h
    · rename_i h0
      refine ⟨m, hm, .inl ⟨h0, ?_⟩⟩
      simpa [h0] using h.symm
    · rename_i h0
      exact ⟨m, hm, .inr ⟨h0, by simpa using h.symm⟩⟩

/-- Recording faults only when the counter points outside the array. -/
theorem recordEdge_error {t : Word} {s : State} {f : Fault} (h : recordEdge t s = .error f) :
    f = .indexFault ∧ s.rx.times.size ≤ s.rx.edge := by
  unfold recordEdge at h
  split at h
  · rename_i g hg
    unfold Memory.write at hg
    split at hg
    · cases hg
    · cases hg; cases h; exact ⟨rfl, by omega⟩
  · split at h <;> cases h

/-! ### Pulse memory -/

theorem appendPair_cases {p : Pair} {s s' : State} (h : appendPair p s = .ok s') :
    pulsesFull s.env.params s.tx.pulses = false ∧ s' = s.setPulses (s.tx.pulses ++ [p]) := by
  unfold appendPair at h
  split at h
  · cases h
  · rename_i hf
    exact ⟨by simpa using hf, by simpa using h.symm⟩

theorem appendPair_error {p : Pair} {s : State} {f : Fault} (h : appendPair p s = .error f) :
    f = .txOverflow ∧ pulsesFull s.env.params s.tx.pulses = true := by
  unfold appendPair at h
  split at h
  · cases h; exact ⟨rfl, ‹_›⟩
  · cases h

/-- A sequence of appends that does not fault leaves the pulse memory extended by the pairs, and nothing else. -/
theorem appendPairs_cases {ps : List Pair} {s s' : State} (h : appendPairs ps s = .ok s') :
    s' = s.setPulses (s.tx.pulses ++ ps) := by
  induction ps generalizing s with
  | nil => simp only [appendPairs, Except.ok.injEq] at h; subst h; simp [State.setPulses]
  | cons p ps ih =>
    unfold appendPairs at h
    split at h
    · cases h
    · rename_i t ht
      obtain ⟨-, rfl⟩ := appendPair_cases ht
      rw [ih h]
      simp [State.setPulses]

/-- Appends that fault do so with the overflow, and only in a bounded memory too small for the whole result. -/
theorem appendPairs_error {ps : List Pair} {s : State} {f : Fault} (h : appendPairs ps s = .error f) :
    f = .txOverflow ∧ ∃ cap, s.env.params.ptCap = some cap ∧ cap < s.tx.pulses.length + ps.length := by
  induction ps generalizing s with
  | nil => simp [appendPairs] at h
  | cons p ps ih =>
    unfold appendPairs at h
    split at h
    · rename_i g hg
      cases h
      obtain ⟨rfl, hf⟩ := appendPair_error hg
      refine ⟨rfl, ?_⟩
      unfold pulsesFull at hf
      split at hf
      · cases hf
      · rename_i cap hc
        exact ⟨cap, hc, by simp at hf ⊢; omega⟩
    · rename_i t ht
      obtain ⟨-, rfl⟩ := appendPair_cases ht
      obtain ⟨rfl, cap, hc, hl⟩ := ih h
      exact ⟨rfl, cap, by simpa using hc, by simp at hl ⊢; omega⟩

/-- With room for the whole result no append faults. -/
theorem appendPairs_of_room {ps : List Pair} {s : State}
    (h : ∀ cap, s.env.params.ptCap = some cap → s.tx.pulses.length + ps.length ≤ cap) :
    appendPairs ps s = .ok (s.setPulses (s.tx.pulses ++ ps)) := by
  cases hr : appendPairs ps s with
  | error f =>
    obtain ⟨-, cap, hc, hl⟩ := appendPairs_error hr
    have := h cap hc
    omega
  | ok t => rw [appendPairs_cases hr]

/-- Room is also needed: appends that do not fault fit (unless there is nothing to append). -/
theorem appendPairs_fit {ps : List Pair} {s s' : State} (h : appendPairs ps s = .ok s') (hne : ps ≠ [])
    {cap : Nat} (hc : s.env.params.ptCap = some cap) : s.tx.pulses.length + ps.length ≤ cap := by
  induction ps generalizing s with
  | nil => exact absurd rfl hne
  | cons p ps ih =>
    unfold appendPairs at h
    split at h
    · cases h
    · rename_i t ht
      obtain ⟨hf, rfl⟩ := appendPair_cases ht
      have hlt : s.tx.pulses.length < cap := by
        simp [pulsesFull, hc] at hf; omega
      cases ps with
      | nil => simp; omega
      | cons q qs =>
        have := ih (s := s.setPulses (s.tx.pulses ++ [p])) h (by simp) (by simpa using hc)
        simp at this ⊢
        omega

/-! ### Dispatch -/

/-- The event a dispatch emits, if any. -/
theorem dispatch_cases (cmd addr ext thresh : Word) (s : State) :
    (dispatch cmd addr ext thresh s = s ∧
        (s.rx.phase = .unconf ∨ s.rx.phase = .closed ∨ (passes cmd thresh = false ∧ s.rx.errh = 0))) ∨
      (dispatch cmd addr ext thresh s = s.emit (.cb s.rx.cb cmd addr ext s.rx.args) ∧
        s.rx.phase ≠ .unconf ∧ s.rx.phase ≠ .closed ∧ passes cmd thresh = true) ∨
      (dispatch cmd addr ext thresh s = s.emit (.err s.rx.errh cmd) ∧
        s.rx.phase ≠ .unconf ∧ s.rx.phase ≠ .closed ∧ passes cmd thresh = false ∧ s.rx.errh ≠ 0) := by
  unfold dispatch
  cases hp : s.rx.phase <;> simp only [reduceCtorEq, ne_eq, not_false_eq_true, true_and, false_or, true_or, or_true, and_true]
  all_goals first
    | exact .inl trivial
    | (cases hq : passes cmd thresh
       · by_cases he : s.rx.errh = 0
         · exact .inl (by simp [he])
         · exact .inr (.inr ⟨by simp only [he, not_false_eq_true, if_true, Bool.false_eq_true, if_false], rfl, he⟩)
       · exact .inr (.inl (by simp)))

@[simp] theorem dispatch_rx (cmd addr ext thresh : Word) (s : State) :
    (dispatch cmd addr ext thresh s).rx = s.rx := by
  rcases dispatch_cases cmd addr ext thresh s with ⟨h, -⟩ | ⟨h, -⟩ | ⟨h, -⟩ <;> simp [h]

@[simp] theorem dispatch_tx (cmd addr ext thresh : Word) (s : State) :
    (dispatch cmd addr ext thresh s).tx = s.tx := by
  rcases dispatch_cases cmd addr ext thresh s with ⟨h, -⟩ | ⟨h, -⟩ | ⟨h, -⟩ <;> simp [h]

@[simp] theorem dispatch_env (cmd addr ext thresh : Word) (s : State) :
    (dispatch cmd addr ext thresh s).env = s.env := by
  rcases dispatch_cases cmd addr ext thresh s with ⟨h, -⟩ | ⟨h, -⟩ | ⟨h, -⟩ <;> simp [h]

@[simp] theorem dispatch_faulted (cmd addr ext thresh : Word) (s : State) :
    (dispatch cmd addr ext thresh s).faulted = s.faulted := by
  rcases dispatch_cases cmd addr ext thresh s with ⟨h, -⟩ | ⟨h, -⟩ | ⟨h, -⟩ <;> simp [h]

@[simp] theorem dispatch_errors (cmd addr ext thresh : Word) (s : State) :
    (dispatch cmd addr ext thresh s).out.errors = s.out.errors := by
  rcases dispatch_cases cmd addr ext thresh s with ⟨h, -⟩ | ⟨h, -⟩ | ⟨h, -⟩ <;> simp [h]

/-! ### Variant selection -/

/-- The three selectors and no other (rule R91). -/
theorem selectVariant_cases {bits : Word} {b : Variant} (h : selectVariant bits = some b) :
    bits = BitVec.ofNat 32 b.bits := by
  unfold selectVariant at h
  split at h
  · cases h; assumption
  · split at h
    · cases h; assumption
    · split at h
      · cases h; assumption
      · cases h

@[simp] theorem selectVariant_bits (b : Variant) : selectVariant (BitVec.ofNat 32 b.bits) = some b := by
  cases b <;> rfl

@[simp] theorem proto_bits (p : Params) (b : Variant) : (proto p b).bits = b := by cases b <;> rfl

@[simp] theorem proto_nedges (p : Params) (b : Variant) : (proto p b).nedges = 2 + 2 * b.bits := by cases b <;> rfl

@[simp] theorem proto_thresh (p : Params) (b : Variant) : (proto p b).thresh = 0 := by cases b <;> rfl

@[simp] theorem proto_decode (p : Params) (b : Variant) : (proto p b).decode = .exemplar := by cases b <;> rfl

/-! ### Inputs -/

theorem takeInput_cases {s t : State} {i : Input} (h : takeInput s = some (i, t)) :
    ∃ rest, s.env.inbox = i :: rest ∧
      t = { s with env := { s.env with now := i.time, inbox := rest } } := by
  unfold takeInput at h
  split at h
  · cases h
  · rename_i j rest hj
    simp only [Option.some.injEq, Prod.mk.injEq] at h
    obtain ⟨rfl, rfl⟩ := h
    exact ⟨rest, hj, rfl⟩

theorem takeInput_cons {s : State} {i : Input} {rest : List Input} (h : s.env.inbox = i :: rest) :
    takeInput s = some (i, { s with env := { s.env with now := i.time, inbox := rest } }) := by
  simp [takeInput, h]

end Sys2Proof.Machine
end

