-- ==== Sys2Proof/Laws/Exec.lean ====
section
/-! SUPPORT. One lemma for each meaning that says everything it can answer, and the decode routine's small lemmas. -/

namespace Sys2Proof.Machine

/-! ### Capture -/

theorem execRxinit_cases (bits cb args : Word) (s : State) :
    (s.rx.phase ≠ .unconf ∧ execRxinit bits cb args s = .next (s.returnError (.rxinit bits cb args) .reinit)) ∨
      (s.rx.phase = .unconf ∧ selectVariant bits = none ∧
        execRxinit bits cb args s = .next (s.returnError (.rxinit bits cb args) .badVariant)) ∨
      (∃ b, s.rx.phase = .unconf ∧ selectVariant bits = some b ∧
        execRxinit bits cb args s = .next (s.constructRx (proto s.env.params b) cb args)) := by
  unfold execRxinit
  by_cases hp : s.rx.phase = .unconf
  · cases hv : selectVariant bits with
    | none => exact .inr (.inl ⟨hp, rfl, by simp [hp]⟩)
    | some b => exact .inr (.inr ⟨b, hp, rfl, by simp [hp]⟩)
  · exact .inl ⟨hp, by simp [hp]⟩

theorem execEdge_cases (t : Word) (s : State) :
    ((s.rx.phase = .unconf ∨ s.rx.phase = .closed) ∧ execEdge t s = .next s) ∨
      (s.rx.phase = .fired ∧ execEdge t s = .fault .raceFault) ∨
      ((s.rx.phase = .idle ∨ s.rx.phase = .armed) ∧ s.rx.cfg.nedges < s.rx.edge ∧ execEdge t s = .next s) ∨
      ((s.rx.phase = .idle ∨ s.rx.phase = .armed) ∧ s.rx.edge ≤ s.rx.cfg.nedges ∧
        ((∃ s', recordEdge t s = .ok s' ∧ execEdge t s = .next s') ∨
          (∃ f, recordEdge t s = .error f ∧ execEdge t s = .fault f))) := by
  unfold execEdge
  cases hp : s.rx.phase <;> simp
  all_goals
    by_cases he : s.rx.edge ≤ s.rx.cfg.nedges
    · right; refine ⟨he, ?_⟩
      cases hr : recordEdge t s <;> simp [he]
    · left; simp [he]; omega

theorem execFire_cases (s : State) :
    ((s.rx.phase = .armed ∨ s.rx.phase = .idle) ∧ execFire s = .next (s.setPhase .fired)) ∨
      ((s.rx.phase = .fired ∨ s.rx.phase = .unconf ∨ s.rx.phase = .closed) ∧ execFire s = .next s) := by
  unfold execFire
  cases hp : s.rx.phase <;> simp

theorem execClose_cases (s : State) :
    (s.rx.phase = .unconf ∧ execClose s = .next s) ∨
      (s.rx.phase ≠ .unconf ∧ execClose s = .next (s.setPhase .closed)) := by
  unfold execClose
  cases hp : s.rx.phase <;> simp

/-! ### Decode -/

theorem slotDiff_of_reads {m : Memory} {i j : Nat} {a b : Word} (ha : m.read i = .ok a) (hb : m.read j = .ok b) :
    slotDiff m i j = .ok (tdiff a b) := by
  simp [slotDiff, ha, hb, bind, Except.bind, pure, Except.pure]

/-- When the slots of the first `n` data bits can be read, the bits are collected without a fault. -/
theorem collectBits_ok {m : Memory} {n : Nat} (h : ∀ i, i < 2 + 2 * n → ∃ v, m.read i = .ok v) :
    ∃ v, collectBits m n = .ok v := by
  induction n with
  | zero => exact ⟨0, rfl⟩
  | succ k ih =>
    obtain ⟨v, hv⟩ := ih fun i hi => h i (by omega)
    obtain ⟨a, ha⟩ := h (3 + 2 * k) (by omega)
    obtain ⟨b, hb⟩ := h (2 + 2 * k) (by omega)
    refine ⟨if markIsOne (tdiff a b) then v ||| ((1 : Word) <<< k) else v, ?_⟩
    simp [collectBits, hv, slotDiff_of_reads ha hb, bind, Except.bind, pure, Except.pure]

/-- With every slot below the expected count readable, the exemplar routine classifies without a fault. -/
theorem decodeExemplar_ok {cfg : Cfg} {m : Memory} {n : Nat} (hc : cfg.nedges = 2 + 2 * cfg.bits.bits)
    (h : ∀ i < n, ∃ v, m.read i = .ok v) : ∃ r, decodeExemplar cfg m n = .ok r := by
  unfold decodeExemplar
  split
  · exact ⟨_, rfl⟩
  split
  · exact ⟨_, rfl⟩
  rename_i hn
  have hn : n = cfg.nedges := by simpa using hn
  subst hn
  have hb : 12 ≤ cfg.bits.bits := by cases cfg.bits <;> simp [Variant.bits]
  obtain ⟨r0, h0⟩ := h 0 (by omega)
  obtain ⟨r1, h1⟩ := h 1 (by omega)
  obtain ⟨r2, h2⟩ := h 2 (by omega)
  obtain ⟨v, hv⟩ := collectBits_ok (m := m) (n := cfg.bits.bits) fun i hi => h i (by omega)
  simp only [slotDiff_of_reads h1 h0, slotDiff_of_reads h2 h1, hv, bind, Except.bind, pure, Except.pure]
  split
  · exact ⟨_, rfl⟩
  split
  · exact ⟨_, rfl⟩
  exact ⟨_, rfl⟩

theorem execDecode_cases (s : State) :
    (s.rx.phase ≠ .fired ∧ execDecode s = .next s) ∨
      (s.rx.phase = .fired ∧
        ((∃ r, runDecode s.rx.cfg s.rx.times s.rx.edge = .ok r ∧ execDecode s = .next (finishDecode r s)) ∨
          (∃ f, runDecode s.rx.cfg s.rx.times s.rx.edge = .error f ∧ execDecode s = .fault f))) := by
  unfold execDecode
  cases hp : s.rx.phase <;> simp
  cases runDecode s.rx.cfg s.rx.times s.rx.edge <;> simp

/-! ### Transmit -/

theorem execTxinit_cases (bits : Word) (s : State) :
    (s.tx.conf = true ∧ execTxinit bits s = .next (s.returnError (.txinit bits) .reinit)) ∨
      (s.tx.conf = false ∧ selectVariant bits = none ∧
        execTxinit bits s = .next (s.returnError (.txinit bits) .badVariant)) ∨
      (∃ b, s.tx.conf = false ∧ selectVariant bits = some b ∧
        execTxinit bits s = .next (s.constructTx (proto s.env.params b))) := by
  unfold execTxinit
  cases hc : s.tx.conf
  · cases hv : selectVariant bits <;> simp
  · simp

theorem execAppend_cases (mark space : Word) (s : State) :
    (s.tx.conf = false ∧ execAppend mark space s = .next (s.returnError (.append mark space) .notConstructed)) ∨
      (s.tx.conf = true ∧ pulsesFull s.env.params s.tx.pulses = true ∧
        execAppend mark space s = .fault .txOverflow) ∨
      (s.tx.conf = true ∧ pulsesFull s.env.params s.tx.pulses = false ∧
        execAppend mark space s = .next (s.setPulses (s.tx.pulses ++ [{ mark := mark, space := space }]))) := by
  unfold execAppend appendPair
  cases hc : s.tx.conf
  · simp
  · cases hf : pulsesFull s.env.params s.tx.pulses <;> simp

theorem execTx_cases (addr data ext : Word) (s : State) :
    (s.tx.conf = false ∧ execTx addr data ext s = .next (s.returnError (.tx addr data ext) .notConstructed)) ∨
      (s.tx.conf = true ∧
        (execTx addr data ext s =
            .next (s.setPulses (trainOf s.tx.cfg.bits (pack s.tx.cfg.bits addr data ext))) ∨
          (execTx addr data ext s = .fault .txOverflow ∧ ∃ cap, s.env.params.ptCap = some cap ∧
            cap < (trainOf s.tx.cfg.bits (pack s.tx.cfg.bits addr data ext)).length))) := by
  unfold execTx
  cases hc : s.tx.conf
  · simp
  · simp only [if_true]
    cases hr : appendPairs (trainOf s.tx.cfg.bits (pack s.tx.cfg.bits addr data ext)) (s.setPulses []) with
    | error f =>
      obtain ⟨rfl, cap, hc', hl⟩ := appendPairs_error hr
      exact .inr ⟨trivial, .inr ⟨rfl, cap, by simpa using hc', by simpa using hl⟩⟩
    | ok t =>
      rw [appendPairs_cases hr]
      exact .inr ⟨trivial, .inl (by simp [State.setPulses])⟩

theorem execPlay_cases (s : State) :
    (s.tx.conf = false ∧ execPlay s = .next (s.returnError .play .notConstructed)) ∨
      (s.tx.conf = true ∧ execPlay s = .next (s.emit (.txout s.tx.pulses s.tx.freq s.tx.gap))) := by
  unfold execPlay
  cases hc : s.tx.conf <;> simp

/-! ### Trains -/

@[simp] theorem bitPairs_length (v : Word) (k n : Nat) : (bitPairs v k n).length = n := by
  induction n generalizing k with
  | zero => rfl
  | succ n ih => simp [bitPairs, ih]

@[simp] theorem trainOf_length (b : Variant) (v : Word) : (trainOf b v).length = 1 + b.bits := by
  simp [trainOf]; omega

end Sys2Proof.Machine
end

