-- ==== Sys2Proof/Laws/Bench.lean ====
section
/-! SUPPORT. Sequences of operations, and the trains and edges of the bench forms. -/

namespace Sys2Proof.Machine

/-! ### Sequences of operations -/

@[simp] theorem execAll_nil (s : State) : execAll [] s = .next s := rfl

theorem execAll_cons {i : Instr} {s t : State} (h : exec i s = .next t) (is : List Instr) :
    execAll (i :: is) s = execAll is t := by simp [execAll, h]

/-! ### Trains -/

theorem bitPairs_get {n j : Nat} (h : j < n) (v : Word) (k : Nat) :
    (bitPairs v k n)[j]? = some (bitPair (v.getLsbD (k + j))) := by
  induction n generalizing k j with
  | zero => omega
  | succ n ih =>
    cases j with
    | zero => simp [bitPairs]
    | succ j => simp only [bitPairs, List.getElem?_cons_succ]; rw [ih (by omega)]; congr 3; omega

/-- Pair `k + 1` of a train is that of data bit `k`. -/
theorem trainOf_get {b : Variant} {k : Nat} (h : k < b.bits) (v : Word) :
    (trainOf b v)[k + 1]? = some (bitPair (v.getLsbD k)) := by
  simp only [trainOf, List.getElem?_cons_succ]; rw [bitPairs_get h]; simp

theorem bitPairs_mem {v : Word} {k n : Nat} {q : Pair} (h : q ∈ bitPairs v k n) :
    q.space = 600 ∧ (q.mark = 600 ∨ q.mark = 1200) := by
  induction n generalizing k with
  | zero => simp [bitPairs] at h
  | succ n ih =>
    simp only [bitPairs, List.mem_cons] at h
    rcases h with rfl | h
    · cases v.getLsbD k <;> simp [bitPair, Config.bitSpace, Config.mark0, Config.mark1]
    · exact ih h

/-! ### Edges -/

@[simp] theorem edgesOf_length (t0 : Nat) (ps : List Pair) : (edgesOf t0 ps).length = 2 * ps.length := by
  induction ps generalizing t0 with
  | nil => rfl
  | cons p ps ih => simp [edgesOf, ih]; omega

/-- Pair `k` of a train makes edges `2k` and `2k + 1`, its mark apart, and its space separates it from edge `2k + 2`. -/
theorem edgesOf_get {ps : List Pair} {k : Nat} {q : Pair} (h : ps[k]? = some q) (t0 : Nat) :
    ∃ e, (edgesOf t0 ps)[2 * k]? = some e ∧ (edgesOf t0 ps)[2 * k + 1]? = some (e + q.mark.toNat) ∧
      (k + 1 < ps.length → (edgesOf t0 ps)[2 * k + 2]? = some (e + q.mark.toNat + q.space.toNat)) := by
  induction ps generalizing t0 k with
  | nil => simp at h
  | cons p ps ih =>
    cases k with
    | zero =>
      simp only [List.getElem?_cons_zero, Option.some.injEq] at h
      subst h
      refine ⟨t0, rfl, rfl, fun hl => ?_⟩
      cases ps with
      | nil => simp at hl
      | cons => rfl
    | succ k =>
      obtain ⟨e, h1, h2, h3⟩ := ih (by simpa using h) (t0 + p.mark.toNat + p.space.toNat)
      refine ⟨e, ?_, ?_, fun hl => ?_⟩
      · rw [show 2 * (k + 1) = 2 * k + 1 + 1 by omega]; simpa [edgesOf] using h1
      · rw [show 2 * (k + 1) + 1 = 2 * k + 1 + 1 + 1 by omega]; simpa [edgesOf] using h2
      · rw [show 2 * (k + 1) + 2 = 2 * k + 2 + 1 + 1 by omega]; simpa [edgesOf] using h3 (by simpa using hl)

end Sys2Proof.Machine
end

