-- ==== Sys2Proof/Laws/Decode.lean ====
section
/-! SUPPORT. The fields of an assembled word, and the word reassembled from its fields. -/

namespace Sys2Proof

theorem toNat_append_eq_add {n m : Nat} (x : BitVec n) (y : BitVec m) :
    (x ++ y).toNat = x.toNat * 2 ^ m + y.toNat := by
  rw [BitVec.toNat_append, ← Nat.shiftLeft_add_eq_or_of_lt y.isLt, Nat.shiftLeft_eq]

/-- A word as one number: each field in its place. -/
theorem mkWord_toNat (op : BitVec 8) (a b c d : Word) :
    (mkWord op a b c d).toNat =
      (((op.toNat * 2 ^ 32 + a.toNat) * 2 ^ 32 + b.toNat) * 2 ^ 32 + c.toNat) * 2 ^ 32 + d.toNat := by
  simp only [mkWord, toNat_append_eq_add]

theorem field_toNat (w : OpWord) (lo len : Nat) :
    (w.extractLsb' lo len).toNat = w.toNat / 2 ^ lo % 2 ^ len := by
  rw [BitVec.extractLsb'_toNat, Nat.shiftRight_eq_div_pow]

@[simp] theorem fieldOp_mkWord (op : BitVec 8) (a b c d : Word) : fieldOp (mkWord op a b c d) = op := by
  apply BitVec.eq_of_toNat_eq
  have := op.isLt; have := a.isLt; have := b.isLt; have := c.isLt; have := d.isLt
  rw [fieldOp, field_toNat, mkWord_toNat]
  omega

@[simp] theorem fieldA_mkWord (op : BitVec 8) (a b c d : Word) : fieldA (mkWord op a b c d) = a := by
  apply BitVec.eq_of_toNat_eq
  have := op.isLt; have := a.isLt; have := b.isLt; have := c.isLt; have := d.isLt
  rw [fieldA, field_toNat, mkWord_toNat]
  omega

@[simp] theorem fieldB_mkWord (op : BitVec 8) (a b c d : Word) : fieldB (mkWord op a b c d) = b := by
  apply BitVec.eq_of_toNat_eq
  have := op.isLt; have := a.isLt; have := b.isLt; have := c.isLt; have := d.isLt
  rw [fieldB, field_toNat, mkWord_toNat]
  omega

@[simp] theorem fieldC_mkWord (op : BitVec 8) (a b c d : Word) : fieldC (mkWord op a b c d) = c := by
  apply BitVec.eq_of_toNat_eq
  have := op.isLt; have := a.isLt; have := b.isLt; have := c.isLt; have := d.isLt
  rw [fieldC, field_toNat, mkWord_toNat]
  omega

@[simp] theorem fieldD_mkWord (op : BitVec 8) (a b c d : Word) : fieldD (mkWord op a b c d) = d := by
  apply BitVec.eq_of_toNat_eq
  have := op.isLt; have := a.isLt; have := b.isLt; have := c.isLt; have := d.isLt
  rw [fieldD, field_toNat, mkWord_toNat]
  omega

/-- A word is its fields put together: no bit of it lies outside them. -/
theorem mkWord_fields (w : OpWord) : mkWord (fieldOp w) (fieldA w) (fieldB w) (fieldC w) (fieldD w) = w := by
  apply BitVec.eq_of_toNat_eq
  have := w.isLt
  rw [mkWord_toNat]
  simp only [fieldOp, fieldA, fieldB, fieldC, fieldD, field_toNat]
  omega

@[simp] theorem opcodeOf_code (k : Opcode) : opcodeOf k.code = some k := by cases k <;> rfl

/-- A value of `OP` names at most one code. -/
theorem opcodeOf_eq_some {op : BitVec 8} {k : Opcode} : opcodeOf op = some k ↔ op = k.code := by
  constructor
  · intro h
    have := List.find?_some h
    exact (by simpa using this : k.code = op).symm
  · rintro rfl; exact opcodeOf_code k

theorem ifZero_eq_ok {unused : List Word} {i j : Instr} :
    ifZero unused i = .ok j ↔ (∀ x ∈ unused, x = 0) ∧ i = j := by
  unfold ifZero
  by_cases h : unused.all (· == 0)
  · have : ∀ x ∈ unused, x = 0 := by simpa using h
    rw [if_pos h, Except.ok.injEq]
    exact ⟨fun e => ⟨this, e⟩, And.right⟩
  · have : ¬ ∀ x ∈ unused, x = 0 := by simpa using h
    rw [if_neg h]
    exact ⟨fun e => (nomatch e), fun e => absurd e.1 this⟩

/-- The decoder on the word with the given fields. -/
theorem decodeWord_mkWord (op : BitVec 8) (a b c d : Word) :
    decodeWord (mkWord op a b c d) =
      match opcodeOf op with
      | none => .error .reservedOp
      | some k => operationOf k a b c d := by
  cases h : opcodeOf op <;>
    simp only [decodeWord, fieldOp_mkWord, fieldA_mkWord, fieldB_mkWord, fieldC_mkWord,
      fieldD_mkWord, h]

theorem portOfWord_mkWord (k : Opcode) (a b c d : Word) : portOfWord (mkWord k.code a b c d) = k.port := by
  simp [portOfWord]

end Sys2Proof
end

