-- ==== Sys2Proof/Laws/PerInstr.lean ====
section
/-! SUPPORT. A fact about every operation as syntax, one lemma for each constructor: the operation code of its word is
that of the table (rule R72), the word's code names the port of its agent, and the fields its format leaves unused
are zero (rule R75). -/

namespace Sys2Proof.Laws.WordFields

/-- How many operand fields the operation's format uses (rules R71 and R72). -/
def arity : Instr → Nat
  | .rxinit _ _ _ => 3
  | .errfn _ => 1
  | .close => 0
  | .txinit _ => 1
  | .append _ _ => 2
  | .tx _ _ _ => 3
  | .play => 0
  | .edge _ => 1
  | .fire => 0
  | .decode => 0
  | .docb _ _ _ _ => 4

def Statement (i : Instr) : Prop :=
  fieldOp (encode i) = i.opcode.code ∧ portOfWord (encode i) = i.port ∧
    (arity i < 1 → fieldA (encode i) = 0) ∧ (arity i < 2 → fieldB (encode i) = 0) ∧
    (arity i < 3 → fieldC (encode i) = 0) ∧ (arity i < 4 → fieldD (encode i) = 0)

theorem rxinit (bits cb args : Word) : Statement (.rxinit bits cb args) := by
  simp [Statement, encode, Instr.opcode, Instr.port, arity, Opcode.code, Opcode.port, portOfWord, opcodeOf, allOpcodes]

theorem errfn (h : Word) : Statement (.errfn h) := by
  simp [Statement, encode, Instr.opcode, Instr.port, arity, Opcode.code, Opcode.port, portOfWord, opcodeOf, allOpcodes]

theorem close : Statement .close := by
  simp [Statement, encode, Instr.opcode, Instr.port, arity, Opcode.code, Opcode.port, portOfWord, opcodeOf, allOpcodes]

theorem txinit (bits : Word) : Statement (.txinit bits) := by
  simp [Statement, encode, Instr.opcode, Instr.port, arity, Opcode.code, Opcode.port, portOfWord, opcodeOf, allOpcodes]

theorem append (mark space : Word) : Statement (.append mark space) := by
  simp [Statement, encode, Instr.opcode, Instr.port, arity, Opcode.code, Opcode.port, portOfWord, opcodeOf, allOpcodes]

theorem tx (addr data ext : Word) : Statement (.tx addr data ext) := by
  simp [Statement, encode, Instr.opcode, Instr.port, arity, Opcode.code, Opcode.port, portOfWord, opcodeOf, allOpcodes]

theorem play : Statement .play := by
  simp [Statement, encode, Instr.opcode, Instr.port, arity, Opcode.code, Opcode.port, portOfWord, opcodeOf, allOpcodes]

theorem edge (t : Word) : Statement (.edge t) := by
  simp [Statement, encode, Instr.opcode, Instr.port, arity, Opcode.code, Opcode.port, portOfWord, opcodeOf, allOpcodes]

theorem fire : Statement .fire := by
  simp [Statement, encode, Instr.opcode, Instr.port, arity, Opcode.code, Opcode.port, portOfWord, opcodeOf, allOpcodes]

theorem decode : Statement .decode := by
  simp [Statement, encode, Instr.opcode, Instr.port, arity, Opcode.code, Opcode.port, portOfWord, opcodeOf, allOpcodes]

theorem docb (cmd addr ext thresh : Word) : Statement (.docb cmd addr ext thresh) := by
  simp [Statement, encode, Instr.opcode, Instr.port, arity, Opcode.code, Opcode.port, portOfWord, opcodeOf, allOpcodes]

end Sys2Proof.Laws.WordFields
end

