-- ==== Sys2Proof/Laws/Routine.lean ====
section
/-! SUPPORT. The computations of the decode routine: time differences of clock readings, the collected bits, and what
the routine reads. -/

namespace Sys2Proof.Machine

/-! ### Time difference -/

theorem tdiff_eq (a b : Word) : tdiff a b = (a.toInt - b.toInt + 2 ^ 29) % 2 ^ 30 - 2 ^ 29 := rfl

theorem readingAt_toInt (T : Nat) : (readingAt T).toInt = (T % 2 ^ 30 : Nat) := by
  have h : (readingAt T).toNat = T % 2 ^ 30 := by
    simp [readingAt, Config.clkW]; omega
  rw [BitVec.toInt_eq_toNat_cond, h]
  have := Nat.mod_lt T (show 0 < 2 ^ 30 by norm_num)
  split <;> omega

/-- The difference of two readings is the difference of their times when that is below half the clock's range. -/
theorem tdiff_readingAt {x y : Nat} (h1 : x < y + 2 ^ 29) (h2 : y ≤ x + 2 ^ 29) :
    tdiff (readingAt x) (readingAt y) = x - y := by
  rw [tdiff_eq, readingAt_toInt, readingAt_toInt]
  push_cast
  omega

/-! ### Variants -/

theorem bits_ge (b : Variant) : 12 ≤ b.bits := by cases b <;> decide

theorem bits_le (b : Variant) : b.bits ≤ 20 := by cases b <;> decide

/-! ### Collected bits -/

/-- Bit `k` of the collected value is the test on the mark of data bit `k`; the bits above are 0. -/
theorem collectBits_bits {m : Memory} {r : Nat → Word} {n : Nat} (hr : ∀ i < 2 + 2 * n, m.read i = .ok (r i))
    (hn : n ≤ 32) :
    ∃ v, collectBits m n = .ok v ∧
      ∀ k, v.getLsbD k = (decide (k < n) && markIsOne (tdiff (r (3 + 2 * k)) (r (2 + 2 * k)))) := by
  induction n with
  | zero => exact ⟨0, rfl, by simp⟩
  | succ n ih =>
    obtain ⟨v, hv, hb⟩ := ih (fun i hi => hr i (by omega)) (by omega)
    refine ⟨if markIsOne (tdiff (r (3 + 2 * n)) (r (2 + 2 * n))) then v ||| ((1 : Word) <<< n) else v, ?_, ?_⟩
    · simp [collectBits, hv, slotDiff_of_reads (hr (3 + 2 * n) (by omega)) (hr (2 + 2 * n) (by omega)), bind,
        Except.bind, pure, Except.pure]
    · intro k
      have h1 : ((1 : Word) <<< n).getLsbD k = decide (k = n) := by
        simp only [BitVec.getLsbD_shiftLeft]
        by_cases hk : k = n
        · subst hk; simp; omega
        · simp [hk]; omega
      split
      · rename_i hm
        rw [BitVec.getLsbD_or, hb, h1]
        by_cases hk : k = n
        · subst hk; simp [hm]
        · have h2 : decide (k < n + 1) = decide (k < n) := by simp; omega
          simp only [hk, h2, decide_false, Bool.or_false]
      · rename_i hm
        rw [hb]
        by_cases hk : k = n
        · subst hk; simp at hm; simp [hm]
        · have h2 : decide (k < n + 1) = decide (k < n) := by simp; omega
          rw [h2]

/-- `n` collected bits make a value below `2 ^ n`. -/
theorem collectBits_lt {m : Memory} {n : Nat} {v : Word} (hn : n ≤ 32) (h : collectBits m n = .ok v) :
    v.toNat < 2 ^ n := by
  induction n generalizing v with
  | zero => simp [collectBits, pure, Except.pure] at h; subst h; simp
  | succ n ih =>
    have hle : 2 ^ n ≤ 2 ^ (n + 1) := Nat.pow_le_pow_right (by omega) (by omega)
    unfold collectBits at h
    cases hc : collectBits m n with
    | error f => simp [hc, bind, Except.bind] at h
    | ok w =>
      have hw := ih (by omega) hc
      cases hm : slotDiff m (3 + 2 * n) (2 + 2 * n) with
      | error f => simp [hc, hm, bind, Except.bind] at h
      | ok x =>
        simp only [hc, hm, bind, Except.bind, pure, Except.pure, Except.ok.injEq] at h
        subst h
        split
        · rw [BitVec.toNat_or]
          refine Nat.or_lt_two_pow (by omega) ?_
          have h1 : ((1 : Word) <<< n).toNat ≤ 2 ^ n := by
            rw [BitVec.toNat_shiftLeft, Nat.shiftLeft_eq, show (1 : Word).toNat = 1 from rfl, one_mul]
            exact Nat.mod_le _ _
          exact lt_of_le_of_lt h1 (Nat.pow_lt_pow_right (by omega) (by omega))
        · omega

/-! ### What the routine reads -/

/-- Two memories whose slots below `n` have the same differences are classified alike. -/
theorem decodeExemplar_congr {cfg : Cfg} {m m' : Memory} {n : Nat} (hc : cfg.nedges = 2 + 2 * cfg.bits.bits)
    (h : ∀ i < n, ∀ j < n, slotDiff m' i j = slotDiff m i j) : decodeExemplar cfg m' n = decodeExemplar cfg m n := by
  have hb : ∀ k, 2 + 2 * k ≤ n → collectBits m' k = collectBits m k := by
    intro k hk
    induction k with
    | zero => rfl
    | succ k ih => unfold collectBits; rw [ih (by omega), h _ (by omega) _ (by omega)]
  unfold decodeExemplar
  split
  · rfl
  split
  · rfl
  rename_i _ hn
  simp only [ne_eq, not_not] at hn
  have := bits_ge cfg.bits
  rw [h 1 (by omega) 0 (by omega), h 2 (by omega) 1 (by omega), hb _ (by omega)]

theorem runDecode_proto (p : Params) (b : Variant) (m : Memory) (n : Nat) :
    runDecode (proto p b) m n = decodeExemplar (proto p b) m n := by cases b <;> rfl

end Sys2Proof.Machine
end

