-- ==== Sys2Proof/Laws/Step.lean ====
section
/-! SUPPORT. Everything one step can answer, and what the promises of the environment and the bounds of a timeout say. -/

namespace Sys2Proof.Machine

theorem decodeOn_ok {p : Port} {w : OpWord} {i : Instr} :
    decodeOn p w = .ok i ↔ decodeWord w = .ok i ∧ i.port = p := by
  unfold decodeOn
  cases h : decodeWord w with
  | error e => simp
  | ok j =>
    by_cases hp : j.port = p
    · simp only [hp, if_true, Except.ok.injEq]
      exact ⟨fun h => ⟨h, h ▸ hp⟩, fun h => h.1⟩
    · simp only [hp, if_false, Except.ok.injEq, reduceCtorEq, false_iff, not_and]
      rintro rfl; exact hp

/-- An input carries a reading exactly when it is the pin's `EDGE` of that reading. -/
theorem reading_eq_some {i : Input} {t : Word} :
    i.reading = some t ↔ ∃ T p w, i = .word T p w ∧ decodeOn p w = .ok (.edge t) := by
  cases i with
  | rst T => simp [Input.reading]
  | word T p w =>
    simp only [Input.reading]
    constructor
    · intro h
      split at h
      · cases h; exact ⟨T, p, w, rfl, ‹_›⟩
      all_goals cases h
    · rintro ⟨_, _, _, ⟨⟩, hd⟩
      rw [hd]

@[simp] theorem follows_none (t : Word) : follows t none = true := rfl

theorem follows_some {t prev : Word} : follows t (some prev) = true ↔ 0 ≤ tdiff t prev := by simp [follows]

/-- The inputs are in order exactly when the first one's reading, if it has one, follows, and the rest are in order after it. -/
theorem readingsInOrder_cons {prev : Option Word} {i : Input} {rest : List Input} :
    readingsInOrder prev (i :: rest) = true ↔
      (∀ t, i.reading = some t → follows t prev = true) ∧ readingsInOrder (latestReading prev i) rest = true := by
  cases h : i.reading <;> simp [readingsInOrder, h]

/-- The three bounds that a frame timeout must meet. -/
theorem frameTimeoutOk_iff {link : LinkTiming} {jitter tblock : Nat} {b : Variant} :
    frameTimeoutOk link jitter b tblock = true ↔
      worstBlock b < tblock ∧ tblock + jitter + link.decodeTime < link.nextBlock ∧ tblock < link.repeatGap := by
  simp [frameTimeoutOk, and_assoc]

/-- Everything a step can answer, by the head of the inbox. -/
theorem step_cases (s : State) :
    (s.env.inbox = [] ∧ step s = .next s) ∨
      (∃ i rest t, s.env.inbox = i :: rest ∧
        t = { s with env := { s.env with now := i.time, inbox := rest } } ∧
        ((∃ T, i = .rst T ∧ step s = .next (assertReset t)) ∨
          (∃ T p w, i = .word T p w ∧
            ((s.faulted = true ∧ step s = .fault .faultedRun) ∨
              (s.faulted = false ∧ ∃ why, decodeOn p w = .error why ∧ step s = .refused (.illegalWord why)) ∨
              (s.faulted = false ∧ ∃ j, decodeOn p w = .ok j ∧ step s = exec j t))))) := by
  cases hi : s.env.inbox with
  | nil => exact .inl ⟨rfl, by simp [step, takeInput, hi]⟩
  | cons i rest =>
    refine .inr ⟨i, rest, _, rfl, rfl, ?_⟩
    unfold step
    rw [takeInput_cons hi]
    cases i with
    | rst T => exact .inl ⟨T, rfl, rfl⟩
    | word T p w =>
      refine .inr ⟨T, p, w, rfl, ?_⟩
      cases hf : s.faulted with
      | true => exact .inl ⟨rfl, by simp⟩
      | false =>
        cases hd : decodeOn p w with
        | error why => exact .inr (.inl ⟨rfl, why, rfl, by simp [hd]⟩)
        | ok j => exact .inr (.inr ⟨rfl, j, rfl, by simp [hd]⟩)

end Sys2Proof.Machine
end

