-- ==== Sys2Proof/Machine/Trace.lean ====
section
/-! DEFINITION. The text forms of the spec: a word as five hexadecimal groups (rule R70) and the trace syntax
(rules R92 and R93). Text is a list of characters. Log entry 23 names what they leave open. -/

namespace Sys2Proof.Machine

/-! ### Words as text (rule R70) -/

/-- The sixteen hexadecimal digits, each in the place of its value. -/
def hexAlphabet : List Char := "0123456789ABCDEF".toList

/-- One hexadecimal digit, in capitals. -/
def hexDigit (n : Nat) : Char := hexAlphabet.getD n '0'

/-- The `k` low hexadecimal digits of `n`, most significant first. -/
def hexDigits (n : Nat) : Nat → List Char
  | 0 => []
  | k + 1 => hexDigits (n / 16) k ++ [hexDigit (n % 16)]

/-- The text `OP:A:B:C:D` of a word. -/
def wordText (w : OpWord) : List Char :=
  hexDigits (fieldOp w).toNat 2 ++ ':' :: hexDigits (fieldA w).toNat 8 ++ ':' :: hexDigits (fieldB w).toNat 8
    ++ ':' :: hexDigits (fieldC w).toNat 8 ++ ':' :: hexDigits (fieldD w).toNat 8

/-! ### Numbers (rule R92) -/

/-- The value of a digit, capital or small: its place in the alphabet that words are written in (rule R70). -/
def digitValue (c : Char) : Option Nat := hexAlphabet.idxOf? c.toUpper

/-- The digits `cs` in base `b` after the value `acc`. -/
def digitsValue (b : Nat) (acc : Nat) : List Char → Option Nat
  | [] => some acc
  | c :: cs =>
    match digitValue c with
    | some d => if d < b then digitsValue b (acc * b + d) cs else none
    | none => none

/-- A number without sign: decimal, or hexadecimal after `0x`. -/
def magnitude : List Char → Option Nat
  | [] => none
  | '0' :: 'x' :: c :: cs => digitsValue 16 0 (c :: cs)
  | c :: cs => digitsValue 10 0 (c :: cs)

/-- A number that lies in the range of `Int` (rule R12), with its leading minus if it has one. -/
def number (cs : List Char) : Option Word :=
  match cs with
  | '-' :: rest =>
    match magnitude rest with
    | some n => if n ≤ 2 ^ 31 then some (BitVec.ofInt 32 (-(n : Int))) else none
    | none => none
  | _ =>
    match magnitude cs with
    | some n => if n < 2 ^ 31 then some (BitVec.ofNat 32 n) else none
    | none => none

/-- The names of the result codes (rule R78). -/
def ResultCode.name : ResultCode → List Char
  | .repeatCode => "REPEAT".toList
  | .badStart => "BADSTART".toList
  | .badBlock => "BADBLOCK".toList
  | .badRep => "BADREP".toList
  | .overrun => "OVERRUN".toList
  | .badData => "BADDATA".toList
  | .badAddr => "BADADDR".toList

/-- The seven codes in the order of rule R78. -/
def allCodes : List ResultCode :=
  [.repeatCode, .badStart, .badBlock, .badRep, .overrun, .badData, .badAddr]

/-- An operand: the name of a result code, or a number. -/
def operand (cs : List Char) : Option Word :=
  match allCodes.find? (fun c => c.name == cs) with
  | some c => some c.number
  | none => number cs

/-! ### Lines (rule R92) -/

/-- A blank. -/
def isBlank (c : Char) : Bool := c == ' ' || c == '\t' || c == '\r'

/-- The text without blanks at either end. -/
def trim (cs : List Char) : List Char :=
  (((cs.dropWhile isBlank).reverse).dropWhile isBlank).reverse

/-- The text cut at every comma. -/
def cutAtCommas (cs : List Char) : List (List Char) := cs.splitOn ','

/-- The operands of a line, all of them numbers or names. -/
def operands (cs : List Char) : Option (List Word) :=
  if trim cs = [] then some [] else ((cutAtCommas cs).map fun o => operand (trim o)).mapM id

/-- The operation of a mnemonic and its operands; none for another number of operands than its format's. -/
def ofMnemonic (m : List Char) (ops : List Word) : Option Instr :=
  if m = "RXINIT".toList then (match ops with | [a, b, c] => some (.rxinit a b c) | _ => none)
  else if m = "ERRFN".toList then (match ops with | [a] => some (.errfn a) | _ => none)
  else if m = "CLOSE".toList then (match ops with | [] => some .close | _ => none)
  else if m = "TXINIT".toList then (match ops with | [a] => some (.txinit a) | _ => none)
  else if m = "APPEND".toList then (match ops with | [a, b] => some (.append a b) | _ => none)
  else if m = "TX".toList then (match ops with | [a, b, c] => some (.tx a b c) | _ => none)
  else if m = "PLAY".toList then (match ops with | [] => some .play | _ => none)
  else if m = "EDGE".toList then (match ops with | [a] => some (.edge a) | _ => none)
  else if m = "FIRE".toList then (match ops with | [] => some .fire | _ => none)
  else if m = "DECODE".toList then (match ops with | [] => some .decode | _ => none)
  else if m = "DOCB".toList then (match ops with | [a, b, c, d] => some (.docb a b c d) | _ => none)
  else none

/-- A line without its comment and without the blanks at either end, cut into its mnemonic and the rest. -/
def cutLine (cs : List Char) : List Char × List Char :=
  let line := trim (cs.takeWhile (· ≠ ';'))
  (line.takeWhile fun c => !isBlank c, line.dropWhile fun c => !isBlank c)

/-- The operation of one line: what stands before a semicolon, a mnemonic and then its operands. None for a line that
names no operation with a legal word. -/
def parseLine (cs : List Char) : Option Instr :=
  match operands (cutLine cs).2 with
  | some ops =>
    match ofMnemonic (cutLine cs).1 ops with
    | some i => if i.wf then some i else none
    | none => none
  | none => none

/-! ### Pseudo-operations (rule R93) -/

/-- Operand texts taken two by two as pairs: the first opens with a parenthesis, the second closes with one. -/
def pairsOf : List (List Char) → Option (List Pair)
  | [] => some []
  | ('(' :: m) :: s :: rest =>
    match s.reverse with
    | ')' :: s' =>
      match operand (trim m), operand (trim s'.reverse), pairsOf rest with
      | some mark, some space, some ps => some ({ mark := mark, space := space } :: ps)
      | _, _, _ => none
    | _ => none
  | _ => none

/-- The pseudo-operation of one line. -/
def parsePseudo (cs : List Char) : Option Pseudo :=
  let m := (cutLine cs).1
  let rest := (cutLine cs).2
  if m = "EXPIRE".toList then (if rest = [] then some .expire else none)
  else if m = "TRANSMIT".toList then
    match operands rest with
    | some [a, d, e] => some (.transmit a d e)
    | _ => none
  else if m = "BLOCK".toList then
    match (cutAtCommas rest).map trim with
    | t :: ps =>
      match magnitude t, pairsOf ps with
      | some t0, some pulses => some (.block t0 pulses)
      | _, _ => none
    | [] => none
  else if m = "LOOPBACK".toList then (magnitude (trim rest)).map Pseudo.loopback
  else none

end Sys2Proof.Machine
end

