-- ==== Sys2Proof/Tests/Slice0.lean ====
section
/-! SUPPORT. Tests: ill-formed terms refused, words written out from the spec's encodings, single steps with the results that
95_test_vectors.md and the rules' examples give, and for each statement with hypotheses a witness that meets them. -/

namespace Sys2Proof.Tests

open Sys2Proof.Machine

/-! ### Helpers -/

/-- The answer is a next state of which `p` holds. -/
def goesTo (o : Host.Outcome State Fault Refusal) (p : State → Bool) : Bool :=
  match o with
  | .next t => p t
  | _ => false

/-- The fault, if that is the answer. -/
def faultOf : Host.Outcome State Fault Refusal → Option Fault
  | .fault f => some f
  | _ => none

/-- The refusal, if that is the answer. -/
def refusalOf : Host.Outcome State Fault Refusal → Option Refusal
  | .refused r => some r
  | _ => none

/-- Slots filled from `k` up. -/
def filled (k : Nat) : List Word → List (Nat × Word)
  | [] => []
  | t :: ts => (k, t) :: filled (k + 1) ts

/-- An array of `size` slots, the first ones holding `ts`. -/
def holding (size : Nat) (ts : List Word) : Memory := { size := size, cells := filled 0 ts }

/-- The start state of 95_test_vectors.md section 2 (12 bit receiver, callback 0x100, arguments 0x200, handler 0x300) in the
given phase with the readings `ts` recorded. -/
def at12 (ph : Phase) (ts : List Word) : State :=
  { State.reset with
    rx := { phase := ph, edge := ts.length, deadline := 29000, times := holding 27 ts, cfg := proto Params.default .b12
            cb := 0x100, args := 0x200, errh := 0x300 } }

/-- The receiver in IDLE. -/
def ready : State := at12 .idle []

/-- A transmitter of the 12 bit variant that holds `ps`, in a pulse memory of capacity `cap`. -/
def sender (cap : Option Nat) (ps : List Pair) : State :=
  { State.reset with
    tx := { conf := true, cfg := proto Params.default .b12, freq := 40000, gap := 0, pulses := ps }
    env := { State.reset.env with params := { Params.default with ptCap := cap } } }

/-- `s` with these inputs waiting. -/
def waiting (s : State) (inbox : List Input) : State := { s with env := { s.env with inbox := inbox } }

/-- `s` at time `T`. -/
def atTime (s : State) (T : Nat) : State := { s with env := { s.env with now := T } }

/-- The readings of V1. -/
def v1 : List Word :=
  [1000, 3400, 4000, 4600, 5200, 6400, 7000, 7600, 8200, 9400, 10000, 11200, 11800] ++
  [13000, 13600, 14200, 14800, 16000, 16600, 17200, 17800, 19000, 19600, 20200, 20800, 21400]

/-- The marks and spaces of the train of V1. -/
def v1Train : List Pair :=
  [⟨2400, 600⟩, ⟨600, 600⟩, ⟨1200, 600⟩, ⟨600, 600⟩, ⟨1200, 600⟩, ⟨1200, 600⟩, ⟨1200, 600⟩] ++
  [⟨600, 600⟩, ⟨1200, 600⟩, ⟨600, 600⟩, ⟨1200, 600⟩, ⟨600, 600⟩, ⟨600, 600⟩]

/-- The invariant as a test. -/
def invHolds (s : State) : Bool :=
  decide (s.rx.phase ≠ .unconf → s.rx.edge ≤ s.rx.cfg.nedges + 1) && decide (s.rx.phase = .idle → s.rx.edge = 0) &&
  decide (s.rx.phase = .armed → 1 ≤ s.rx.edge) &&
  decide (s.rx.phase = .armed ∨ s.rx.phase = .fired → ∀ i < s.rx.edge, s.rx.times.holds i = true) &&
  decide (s.rx.phase = .unconf → s.rx.edge = 0) && decide (s.tx.conf = false → s.tx.pulses = []) && s.rx.times.wf &&
  decide (s.rx.phase ≠ .unconf → s.rx.times.size = s.rx.cfg.nedges + 1) &&
  s.rx.times.cells.all (fun c => isReading c.2) && decide (s.rx.cfg = proto s.env.params s.rx.cfg.bits) &&
  decide (s.tx.cfg = proto s.env.params s.tx.cfg.bits) && decide (s.tx.freq = s.tx.cfg.freq) &&
  decide (s.tx.gap = s.tx.cfg.gap) &&
  (match s.env.params.ptCap with | none => true | some cap => decide (s.tx.pulses.length ≤ cap))

theorem inv_of {s : State} (h : invHolds s = true) : Inv s := by
  simp only [invHolds, Bool.and_eq_true, decide_eq_true_eq, List.all_eq_true] at h
  obtain ⟨⟨⟨⟨⟨⟨⟨⟨⟨⟨⟨⟨⟨a, b⟩, c⟩, d⟩, e⟩, f⟩, g⟩, i⟩, j⟩, k⟩, l⟩, m⟩, n⟩, o⟩ := h
  refine ⟨a, b, c, d, e, f, g, i, j, k, l, m, n, fun cap hc => ?_⟩
  rw [hc] at o
  simpa using o

/-! ### Well-formedness: the one check, refused at its boundary -/

theorem test_edge_reading_too_large_is_ill_formed : Instr.wf (.edge 0x40000000) = false := by decide

theorem test_edge_negative_reading_is_ill_formed : Instr.wf (.edge (-1)) = false := by decide

theorem test_edge_greatest_reading_is_well_formed : Instr.wf (.edge 0x3FFFFFFF) = true := by decide

/-! ### Decoding: a word of every row, written out from rule R72 -/

theorem test_decode_rxinit :
    decodeTableWord 136 0x010000000C000001000000020000000000 = some (.rxinit 12 0x100 0x200) := by decide

theorem test_decode_errfn : decodeTableWord 136 0x0200000300000000000000000000000000 = some (.errfn 0x300) := by decide

theorem test_decode_close : decodeTableWord 136 0x0300000000000000000000000000000000 = some .close := by decide

theorem test_decode_txinit : decodeTableWord 136 0x100000000C000000000000000000000000 = some (.txinit 12) := by decide

theorem test_decode_append :
    decodeTableWord 136 0x1100000960000002580000000000000000 = some (.append 2400 600) := by decide

theorem test_decode_tx :
    decodeTableWord 136 0x12000000050000003A0000000000000000 = some (.tx 0x05 0x3A 0) := by decide

theorem test_decode_play : decodeTableWord 136 0x1300000000000000000000000000000000 = some .play := by decide

theorem test_decode_edge : decodeTableWord 136 0x80000003E8000000000000000000000000 = some (.edge 1000) := by decide

theorem test_decode_fire : decodeTableWord 136 0x8100000000000000000000000000000000 = some .fire := by decide

theorem test_decode_decode : decodeTableWord 136 0x8200000000000000000000000000000000 = some .decode := by decide

theorem test_decode_docb :
    decodeTableWord 136 0x83FFFFFFFF0000000000000000FFFFFFFF = some (.docb (-1) 0 0 (-1)) := by decide

/-- VE27, VE28, VE29. -/
theorem test_illegal_words :
    decodeWord 0x8040000000000000000000000000000000 = .error .badReading ∧
    decodeWord 0x8100000001000000000000000000000000 = .error .unusedField ∧
    decodeWord 0x0400000000000000000000000000000000 = .error .reservedOp := by refine ⟨?_, ?_, ?_⟩ <;> rfl

/-- The very next step after a word is placed runs it; an illegal one is refused. -/
theorem test_first_step_after_reset :
    goesTo (step (State.reset.withFetchWord 136 0x010000000C000001000000020000000000)) (fun t =>
      t.rx.phase == .idle && t.rx.cb == 0x100 && t.env.inbox == []) = true ∧
    refusalOf (step (State.reset.withFetchWord 136 0x0400000000000000000000000000000000)) =
      some (.illegalWord .reservedOp) := by decide

/-! ### RXINIT -/

/-- VE1. -/
theorem test_rxinit_constructs :
    goesTo (exec (.rxinit 12 0x100 0x200) State.reset) (fun t =>
      t.rx.phase == .idle && t.rx.edge == 0 && t.rx.cfg.nedges == 26 && t.rx.cfg.tblock == 28000 &&
      t.rx.times == { size := 27, cells := [] } && t.rx.cb == 0x100 && t.rx.args == 0x200) = true := by decide

/-- VE7: REINIT is tested first. -/
theorem test_rxinit_twice_is_reinit :
    goesTo (exec (.rxinit 13 1 2) ready) (fun t =>
      t.rx == ready.rx && t.out.errors == [⟨.rxinit 13 1 2, .reinit⟩]) = true := by decide

/-! ### ERRFN -/

/-- VD13: registered in UNCONF. -/
theorem test_errfn_before_construction :
    goesTo (exec (.errfn 0x300) State.reset) (fun t => t.rx.errh == 0x300) = true := by decide

/-- VD12. -/
theorem test_errfn_zero_silences : goesTo (exec (.errfn 0) ready) (fun t => t.rx.errh == 0) = true := by decide

/-! ### CLOSE -/

/-- VE22. -/
theorem test_close_keeps_the_counter :
    goesTo (exec .close (at12 .armed (v1.take 7))) (fun t =>
      t.rx.phase == .closed && t.rx.edge == 7) = true := by decide

/-- VE25. -/
theorem test_close_without_receiver : goesTo (exec .close State.reset) (fun t =>
      t.rx.phase == .unconf) = true := by decide

/-! ### TXINIT -/

/-- VT1. -/
theorem test_txinit_constructs :
    goesTo (exec (.txinit 12) State.reset) (fun t =>
      t.tx.conf == true && t.tx.freq == 40000 && t.tx.gap == 0 && t.tx.pulses == []) = true := by decide

/-- VT2. -/
theorem test_txinit_bad_variant :
    goesTo (exec (.txinit 16) State.reset) (fun t =>
      t.tx.conf == false && t.out.errors == [⟨.txinit 16, .badVariant⟩]) = true := by decide

/-! ### APPEND -/

/-- VT6: a negative space is stored as given, at the end. -/
theorem test_append_at_the_end :
    goesTo (exec (.append 560 (-1)) (sender none [⟨2400, 600⟩])) (fun t =>
      t.tx.pulses == [⟨2400, 600⟩, ⟨560, -1⟩]) = true := by decide

/-- Rule R176. -/
theorem test_append_overflows :
    faultOf (exec (.append 1 1) (sender (some 1) [⟨2400, 600⟩])) = some .txOverflow := by decide

/-! ### TX -/

/-- VT9: the pairs that stood there are discarded. -/
theorem test_tx_builds_the_train_of_v1 :
    goesTo (exec (.tx 0x05 0x3A 0) (sender none [⟨2400, 600⟩, ⟨560, -1⟩])) (fun t =>
      t.tx.pulses == v1Train) = true := by decide

/-- VT18: every field masked. -/
theorem test_pack_masks : pack .b20 0x25 0x80 0x1FF = 0xFF280 ∧ pack .b12 0x25 0x3A 0x99 = 0x2BA := by decide

/-! ### PLAY -/

/-- VT11. -/
theorem test_play_hands_over :
    goesTo (exec .play (sender none v1Train)) (fun t =>
      t.tx.pulses == v1Train && t.out.events == [.txout v1Train 40000 0]) = true := by decide

/-- VT4. -/
theorem test_play_before_construction :
    goesTo (exec .play State.reset) (fun t =>
      t.out.events == [] && t.out.errors == [⟨.play, .notConstructed⟩]) = true := by decide

/-! ### EDGE -/

/-- VE9: recorded, the deadline not moved. -/
theorem test_edge_records :
    goesTo (exec (.edge 3400) (atTime (at12 .armed [1000]) 3400)) (fun t =>
      t.rx.edge == 2 && lookupCell 1 t.rx.times.cells == some 3400 && t.rx.deadline == 29000) = true := by decide

/-- VE11 and VE12: the overrun slot, then dropped. -/
theorem test_edge_saturates :
    goesTo (exec (.edge 22000) (at12 .armed v1)) (fun t =>
      t.rx.edge == 27 && lookupCell 26 t.rx.times.cells == some 22000) = true ∧
    goesTo (exec (.edge 23000) (at12 .armed (v1 ++ [22000]))) (fun t => t == at12 .armed (v1 ++ [22000])) = true := by decide

/-! ### FIRE -/

/-- VE18. -/
theorem test_fire_hands_over :
    goesTo (exec .fire (at12 .armed v1)) (fun t =>
      t.rx.phase == .fired && t.rx.edge == 26 && t.rx.times == holding 27 v1) = true := by decide

/-- VE19. -/
theorem test_fire_spurious : goesTo (exec .fire ready) (fun t => t.rx.phase == .fired) = true := by decide

/-! ### DECODE -/

/-- VK1. -/
theorem test_decode_v1 :
    goesTo (exec .decode (at12 .fired v1)) (fun t =>
      t.rx.phase == .idle && t.rx.edge == 0 && t.out.events == [.cb 0x100 0x3A 0x05 0 0x200]) = true := by decide

/-- VK5. -/
theorem test_decode_overrun :
    goesTo (exec .decode (at12 .fired (v1 ++ [22000]))) (fun t =>
      t.rx.phase == .idle && t.out.events == [.err 0x300 (-5)]) = true := by decide

/-! ### DOCB -/

/-- VD8: equal passes. -/
theorem test_docb_equal_passes :
    goesTo (exec (.docb 16 1 0 16) ready) (fun t => t.out.events == [.cb 0x100 16 1 0 0x200]) = true := by decide

/-- VD6: the comparison is signed. -/
theorem test_docb_is_signed :
    goesTo (exec (.docb (-2) 0 0 (-1)) ready) (fun t => t.out.events == [.err 0x300 (-2)]) = true := by decide

/-! ### Computations -/

/-- The table of 95_test_vectors.md section 2.2. -/
theorem test_tdiff :
    tdiff 1400 0x3FFFFC18 = 2400 ∧ tdiff 0 0x3FFFFFFF = 1 ∧ tdiff 0x3FFFFFFF 0 = -1 ∧
    tdiff 0x1FFFFFFF 0 = 536870911 ∧ tdiff 0x20000000 0 = -536870912 := by decide

/-- The table of 95_test_vectors.md section 2.2. -/
theorem test_unpack :
    unpack .b12 0x2BA = .valid 0x3A 0x05 0 ∧ unpack .b12 0x103A = .error .badAddr ∧
    unpack .b15 0x7FFF = .valid 0x7F 0xFF 0 ∧ unpack .b15 0x8000 = .error .badAddr ∧
    unpack .b20 0xFF0FA = .valid 0x7A 0x01 0xFF ∧ unpack .b20 0x100000 = .error .badData := by decide

/-- V1: the edges of the train. -/
theorem test_edgesOf : (edgesOf 1000 v1Train).map readingAt = v1 := by decide

/-- Rule R92's examples. -/
theorem test_trace_syntax :
    parseLine "EDGE 1000".toList = some (.edge 1000) ∧
    parseLine "DOCB BADADDR, 0, 0, 0 ; out of range".toList = some (.docb (-7) 0 0 0) ∧
    wordText (encode (.docb (-7) 0 0 0)) = "83:FFFFFFF9:00000000:00000000:00000000".toList := by decide

/-! ### Witnesses: for every statement with hypotheses, states and operands that meet them, each clause at its boundary -/

/-- The fields of an operation's word, for the operations that a given word could be. -/
theorem not_encoded {w : OpWord} {i : Instr} (h : w = encode i) :
    fieldOp w = fieldOp (encode i) ∧ fieldA w = fieldA (encode i) ∧ fieldB w = fieldB (encode i) := by subst h; exact ⟨rfl, rfl, rfl⟩

theorem witness_OperationCodesAreThoseOfTheTable :
    (0x3FFFFFFF : Word).toNat < 2 ^ 30 ∧ ¬ (0x40000000 : Word).toNat < 2 ^ 30 ∧
    (0x00 : BitVec 8) ∉ [0x01, 0x02, 0x03, 0x10, 0x11, 0x12, 0x13, 0x80, 0x81, 0x82, 0x83] ∧
    (0x04 : BitVec 8) ∉ [0x01, 0x02, 0x03, 0x10, 0x11, 0x12, 0x13, 0x80, 0x81, 0x82, 0x83] ∧
    (0x84 : BitVec 8) ∉ [0x01, 0x02, 0x03, 0x10, 0x11, 0x12, 0x13, 0x80, 0x81, 0x82, 0x83] := by decide

/-- A reserved code; a non-zero unused field; a reading out of range; a host code on an event port; an event code on the host
port. -/
theorem witness_IllegalWordsAreRefusedAndChangeNothing :
    State.reset.faulted = false ∧
    (waiting State.reset [.word 0 .host (mkWord 0x04 0 0 0 0)]).env.inbox =
      .word 0 .host (mkWord 0x04 0 0 0 0) :: [] ∧
    (∀ i : Instr, ¬ (i.wf = true ∧ mkWord 0x04 0 0 0 0 = encode i ∧
      (i.port = .host ↔ Port.host = .host))) ∧
    (∀ i : Instr, ¬ (i.wf = true ∧ mkWord 0x81 1 0 0 0 = encode i ∧
      (i.port = .host ↔ Port.timer = .host))) ∧
    (∀ i : Instr, ¬ (i.wf = true ∧ mkWord 0x80 0x40000000 0 0 0 = encode i ∧
      (i.port = .host ↔ Port.pin = .host))) ∧
    (∀ i : Instr, ¬ (i.wf = true ∧ mkWord 0x03 0 0 0 0 = encode i ∧
      (i.port = .host ↔ Port.engine = .host))) ∧
    (∀ i : Instr, ¬ (i.wf = true ∧ mkWord 0x82 0 0 0 0 = encode i ∧
      (i.port = .host ↔ Port.host = .host))) := by
  refine ⟨rfl, rfl, ?_, ?_, ?_, ?_, ?_⟩ <;> rintro i ⟨hw, he, hp⟩ <;> have hf := not_encoded he <;> cases i <;>
    simp [encode] at hf <;> simp [Instr.port, Instr.opcode, Opcode.port] at hp
  subst hf
  revert hw
  decide

theorem witness_WordsOnAWrongPortAreRefused :
    State.reset.faulted = false ∧ Instr.wf .fire = true ∧ Port.pin ≠ Instr.port .fire ∧
    (waiting State.reset [.word 0 .pin (encode .fire)]).env.inbox = .word 0 .pin (encode .fire) :: [] := by
  refine ⟨rfl, rfl, by decide, rfl⟩

theorem witness_StepPerformsTheDeliveredOperation :
    ready.faulted = false ∧ Instr.wf (.edge 0x3FFFFFFF) = true ∧
    (waiting ready [.word 7 .pin (encode (.edge 0x3FFFFFFF))]).env.inbox =
      .word 7 (Instr.port (.edge 0x3FFFFFFF)) (encode (.edge 0x3FFFFFFF)) :: [] := by
  refine ⟨rfl, by decide, rfl⟩

theorem witness_FaultedStaysFaulted :
    (waiting { ready with faulted := true } [.word 7 .timer (encode .fire)]).faulted = true ∧
    step (waiting (at12 .fired v1) [.word 7 .pin (encode (.edge 1000))]) = .fault .raceFault ∧
    exec .fire ready = .next (ready.setPhase .fired) := by
  refine ⟨rfl, rfl, rfl⟩

theorem witness_ResetInputResetsFromAnyState :
    (waiting { at12 .fired v1 with faulted := true } [.rst 9]).env.inbox = .rst 9 :: [] := rfl

theorem witness_StepKeepsTheInvariant :
    Inv (waiting (at12 .armed v1) [.word 22000 .pin (encode (.edge 22000))]) ∧
    goesTo (step (waiting (at12 .armed v1) [.word 22000 .pin (encode (.edge 22000))])) (fun _ => true) = true :=
  ⟨inv_of (by decide), by decide⟩

theorem witness_OnlyRaceAndOverflowCanFault :
    Inv (at12 .fired v1) ∧ exec (.edge 1000) (at12 .fired v1) = .fault .raceFault ∧
    Inv (sender (some 1) [⟨2400, 600⟩]) ∧ exec (.append 1 1) (sender (some 1) [⟨2400, 600⟩]) = .fault .txOverflow ∧
    Inv (sender (some 12) []) ∧ exec (.tx 5 0x3A 0) (sender (some 12) []) = .fault .txOverflow :=
  ⟨inv_of (by decide), rfl, inv_of (by decide), rfl, inv_of (by decide), rfl⟩

/-- An edge in ARMED whose reading is the previous one, an edge after none, an expiry exactly at the deadline, an operation of
the host. -/
theorem witness_HonestEnvironmentNeverStopsTheMachine :
    Inv (waiting (at12 .armed v1) [delivery 29000 .fire]) ∧ (at12 .armed v1).faulted = false ∧
    (at12 .armed v1).env.params.ptCap = none ∧
    (Instr.wf (.edge 21400) = true ∧ keepsPromise (some 21400) (.edge 21400) (atTime (at12 .armed v1) 29000) = true) ∧
    (Instr.wf (.edge 0x3FFFFFFF) = true ∧ keepsPromise none (.edge 0x3FFFFFFF) (atTime (at12 .armed v1) 29000) = true) ∧
    (Instr.wf .fire = true ∧ keepsPromise none .fire (atTime (at12 .armed v1) 29000) = true) ∧
    (Instr.wf (.tx 5 0x3A 0) = true ∧ keepsPromise none (.tx 5 0x3A 0) (atTime (at12 .armed v1) 29000) = true) :=
  ⟨inv_of (by decide), rfl, rfl, by decide, by decide, by decide, by decide⟩

/-- Rule R17: readings follow one another over the wrap of the clock (R13), equal ones too, and not backwards. -/
theorem test_follows : follows 0 (some 0x3FFFFFFF) = true ∧ follows 5 (some 5) = true ∧ follows 4 (some 5) = false := by
  decide

/-- A capture with room for one more reading, and the next edge, whose reading is the newest one again. -/
theorem witness_ReadingsInOrderFillTheBlockInOrder :
    Inv (waiting (at12 .armed [1000, 3400]) [.word 3400 .pin (encode (.edge 3400))]) ∧
    BlockInOrder (some 3400) (waiting (at12 .armed [1000, 3400]) [.word 3400 .pin (encode (.edge 3400))]) ∧
    readingsInOrder (some 3400) [.word 3400 .pin (encode (.edge 3400))] = true ∧
    goesTo (step (waiting (at12 .armed [1000, 3400]) [.word 3400 .pin (encode (.edge 3400))]))
      (fun t => t.rx.edge == 3) = true ∧
    (536870911 : Nat) < 2 ^ 29 := by
  refine ⟨inv_of (by decide), ⟨?_, ?_⟩, by decide, by decide, by decide⟩
  · intro i a b hi ha hb
    obtain rfl : i = 0 := by have : i + 1 < 2 := hi; omega
    cases ha; cases hb; decide
  · intro _ _ a ha; cases ha; rfl

/-- A next state and a fault in every clause's phase: any state, UNCONF, no transmitter; both constructions. -/
theorem witness_UnspecifiedFieldsAreNeverReadTooEarly :
    goesTo (exec (.edge 5) ready) (fun _ => true) = true ∧ exec (.edge 5) (at12 .fired v1) = .fault .raceFault ∧
    (sender (some 0) []).rx.phase = .unconf ∧
    goesTo (exec (.rxinit 12 1 2) (sender (some 0) [])) (fun t => t.rx.phase == .idle) = true ∧
    goesTo (exec .fire (sender (some 0) [])) (fun t => t.rx.phase == .unconf) = true ∧
    exec (.append 1 1) (sender (some 0) []) = .fault .txOverflow ∧
    (at12 .fired v1).tx.conf = false ∧
    goesTo (exec (.txinit 12) (at12 .fired v1)) (fun t => t.tx.conf) = true ∧
    goesTo (exec .play (at12 .fired v1)) (fun t => !t.tx.conf) = true :=
  ⟨by decide, rfl, rfl, by decide, by decide, rfl, rfl, by decide, by decide⟩

theorem witness_MemoryReturnsWhatWasWritten : 0 < (holding 27 v1).size ∧ 26 < (holding 27 v1).size := by decide

theorem witness_MemoryFaultsAndStaysCanonical :
    (holding 27 v1).size ≤ 27 ∧ (26 : Nat) < 27 ∧ (holding 27 v1).wf = true ∧
    (holding 27 v1).write 26 22000 = .ok (holding 27 (v1 ++ [22000])) ∧ (holding 27 (v1 ++ [22000])).wf = true :=
  ⟨by decide, by decide, by decide, rfl, by decide⟩

theorem witness_RxinitConstructsTheReceiverOrRefuses :
    ready.rx.phase ≠ .unconf ∧ (at12 .closed []).rx.phase ≠ .unconf ∧
    (State.reset.rx.phase = .unconf ∧ (13 : Word) ≠ 12 ∧ (13 : Word) ≠ 15 ∧ (13 : Word) ≠ 20) ∧
    (12 : Word) = BitVec.ofNat 32 Variant.b12.bits ∧ (15 : Word) = BitVec.ofNat 32 Variant.b15.bits ∧
    (20 : Word) = BitVec.ofNat 32 Variant.b20.bits := by decide

/-- Every phase; the counter at 0, at `nedges` and above it. -/
theorem witness_EdgeRecordsDropsOrRaces :
    (Inv State.reset ∧ State.reset.rx.phase = .unconf) ∧ (Inv (at12 .closed v1) ∧ (at12 .closed v1).rx.phase = .closed) ∧
    (Inv (at12 .fired v1) ∧ (at12 .fired v1).rx.phase = .fired) ∧
    (Inv ready ∧ ready.rx.phase = .idle ∧ ready.rx.edge = 0) ∧
    (Inv (at12 .armed v1) ∧ (at12 .armed v1).rx.phase = .armed ∧ (at12 .armed v1).rx.edge = 26 ∧
      (at12 .armed v1).rx.cfg.nedges = 26) ∧
    (Inv (at12 .armed (v1 ++ [22000])) ∧ (at12 .armed (v1 ++ [22000])).rx.cfg.nedges < (at12 .armed (v1 ++ [22000])).rx.edge) := by
  refine ⟨⟨inv_of ?_, ?_⟩, ⟨inv_of ?_, ?_⟩, ⟨inv_of ?_, ?_⟩, ⟨inv_of ?_, ?_⟩, ⟨inv_of ?_, ?_⟩, inv_of ?_, ?_⟩ <;> decide

/-- No edge, as many as expected, one more. -/
theorem witness_BlockOfEdgesFillsSlotsInOrderAndSaturates :
    Inv ready ∧ ready.rx.phase = .idle ∧ ([] : List Word).length < ready.rx.cfg.nedges ∧
    v1.length = ready.rx.cfg.nedges ∧ 0 ≤ ready.rx.cfg.nedges ∧ v1[0]? = some 1000 ∧ v1[25]? = some 21400 ∧
    ready.rx.cfg.nedges < (v1 ++ [22000]).length :=
  ⟨inv_of (by decide), by decide, by decide, by decide, by decide, by decide, by decide, by decide⟩

theorem witness_FireHandsTheBlockToTheDecoder :
    (at12 .armed v1).rx.phase = .armed ∧ ready.rx.phase = .idle ∧ (at12 .fired v1).rx.phase = .fired ∧
    State.reset.rx.phase = .unconf ∧ (at12 .closed v1).rx.phase = .closed := by decide

theorem witness_CloseDetachesTheReceiver :
    State.reset.rx.phase = .unconf ∧ (at12 .fired v1).rx.phase ≠ .unconf ∧ (at12 .closed v1).rx.phase ≠ .unconf := by decide

theorem witness_AfterCloseOnlySilence :
    (at12 .closed v1).rx.phase = .closed ∧
    ∀ i ∈ [Instr.edge 9000, .fire, .decode, .docb 0 0 0 0, .errfn 5, .rxinit 12 0 0, .close], isReceive i = true := by decide

/-- One state for each row of the table. -/
theorem witness_PhaseTransitionTable :
    Inv State.reset ∧ goesTo (exec (.rxinit 12 1 2) State.reset) (·.rx.phase == .idle) = true ∧
    goesTo (exec (.rxinit 13 1 2) State.reset) (·.rx.phase == .unconf) = true ∧
    Inv ready ∧ goesTo (exec (.edge 5) ready) (·.rx.phase == .armed) = true ∧
    goesTo (exec .fire ready) (·.rx.phase == .fired) = true ∧ goesTo (exec .close ready) (·.rx.phase == .closed) = true ∧
    Inv (at12 .armed v1) ∧ goesTo (exec .fire (at12 .armed v1)) (·.rx.phase == .fired) = true ∧
    goesTo (exec .close (at12 .armed v1)) (·.rx.phase == .closed) = true ∧
    Inv (at12 .fired v1) ∧ goesTo (exec .decode (at12 .fired v1)) (·.rx.phase == .idle) = true ∧
    goesTo (exec .close (at12 .fired v1)) (·.rx.phase == .closed) = true ∧
    goesTo (exec .play (at12 .fired v1)) (·.rx.phase == .fired) = true :=
  ⟨inv_of (by decide), by decide, by decide, inv_of (by decide), by decide, by decide, by decide, inv_of (by decide), by decide,
    by decide, inv_of (by decide), by decide, by decide, by decide⟩

theorem witness_EdgeAndExpiryInEitherOrder :
    Inv (at12 .armed v1) ∧ (at12 .armed v1).rx.phase = .armed ∧ (at12 .armed v1).rx.edge ≤ (at12 .armed v1).rx.cfg.nedges :=
  ⟨inv_of (by decide), rfl, by decide⟩

theorem witness_DecodeClassifiesResetsAndDispatches :
    ready.rx.phase ≠ .fired ∧ Inv (at12 .fired v1) ∧ (at12 .fired v1).rx.phase = .fired ∧
    Inv (at12 .fired []) ∧ (at12 .fired []).rx.phase = .fired :=
  ⟨by decide, inv_of (by decide), rfl, inv_of (by decide), rfl⟩

/-- (a) Memories that differ above `n` only; (b) a triple and a code; (d) one edge too many; (e) readings 100 later. -/
theorem witness_DecodeRoutineKeepsItsContract :
    (∀ i < 26, (holding 27 (v1 ++ [22000])).read i = (holding 27 v1).read i) ∧
    (∀ i < 26, (holding 27 v1).read i = .ok (v1.getD i 0)) ∧
    runDecode (proto Params.default .b12) (holding 27 v1) 26 = .ok (.valid 0x3A 5 0) ∧
    runDecode (proto Params.default .b12) (holding 27 v1) 25 = .ok (.error .badBlock) ∧
    (proto Params.default .b12).nedges < 27 ∧
    (∀ i < 26, (holding 27 (v1.map (· + 100))).read i = .ok (v1.getD i 0 + 100)) ∧
    (∀ i < 26, ∀ j < 26, tdiff (v1.getD i 0) (v1.getD j 0) = tdiff (v1.getD i 0 + 100) (v1.getD j 0 + 100)) := by
  refine ⟨?_, ?_, rfl, rfl, by decide, ?_, by decide⟩ <;> intro i hi <;> interval_cases i <;> rfl

theorem witness_ShortBlocksAreBadAndLongBlocksOverrun :
    0 < (proto Params.default .b12).nedges ∧ 25 < (proto Params.default .b12).nedges ∧
    27 > (proto Params.default .b12).nedges ∧ 41 < (proto Params.default .b20).nedges ∧
    43 > (proto Params.default .b20).nedges := by decide

/-- V1 with another lead-in mark and space: the later readings move with them. -/
def leadIn (mark space : Word) : List Word := 1000 :: (1000 + mark) :: (v1.drop 2).map (· + (mark + space - 3000))

/-- The windows at both ends (VK6 to VK13), a count too small and too great. -/
theorem witness_ExemplarReadsLeadInThenBits :
    (∀ i < 26, (holding 27 v1).read i = .ok (v1.getD i 0)) ∧ 27 > 2 + 2 * Variant.b12.bits ∧ 25 < 2 + 2 * Variant.b12.bits ∧
    26 = 2 + 2 * Variant.b12.bits ∧
    (∀ m ∈ [(1800 : Word), 3000], ¬ (1800 < tdiff ((leadIn m 600).getD 1 0) ((leadIn m 600).getD 0 0) ∧
      tdiff ((leadIn m 600).getD 1 0) ((leadIn m 600).getD 0 0) < 3000)) ∧
    (∀ m ∈ [(1801 : Word), 2999], 1800 < tdiff ((leadIn m 600).getD 1 0) ((leadIn m 600).getD 0 0) ∧
      tdiff ((leadIn m 600).getD 1 0) ((leadIn m 600).getD 0 0) < 3000) ∧
    (∀ p ∈ [(350 : Word), 1000], ¬ (350 < tdiff ((leadIn 2400 p).getD 2 0) ((leadIn 2400 p).getD 1 0) ∧
      tdiff ((leadIn 2400 p).getD 2 0) ((leadIn 2400 p).getD 1 0) < 1000)) ∧
    (∀ p ∈ [(351 : Word), 999], 350 < tdiff ((leadIn 2400 p).getD 2 0) ((leadIn 2400 p).getD 1 0) ∧
      tdiff ((leadIn 2400 p).getD 2 0) ((leadIn 2400 p).getD 1 0) < 1000) := by
  refine ⟨fun i hi => by interval_cases i <;> rfl, by decide, by decide, by decide, ?_, ?_, ?_, ?_⟩ <;> intro x hx <;>
    simp only [List.mem_cons, List.not_mem_nil, or_false] at hx <;> rcases hx with rfl | rfl <;> decide

theorem witness_ExemplarNeverReportsRepeats :
    runDecode (proto Params.default .b12) (holding 27 v1) 25 = .ok (.error .badBlock) ∧
    runDecode (proto Params.default .b12) (holding 27 (leadIn 1800 600)) 26 = .ok (.error .badStart) ∧
    runDecode (proto Params.default .b12) (holding 27 v1) 27 = .ok (.error .overrun) := ⟨rfl, rfl, rfl⟩

theorem witness_CapturedEdgesNeverFailTheFieldChecks :
    runDecode (proto Params.default .b12) (holding 27 v1) 0 = .ok (.error .badBlock) ∧
    runDecode (proto Params.default .b12) (holding 27 (leadIn 2400 1000)) 26 = .ok (.error .badStart) := ⟨rfl, rfl⟩

/-- V1 with the mark of bit 0 going back by 5 and the space after it longer (VK17, VK18). -/
def crooked : List Word := (v1.take 3) ++ 3995 :: (v1.drop 4).map (· + 3000)

theorem witness_OnlyLeadInAndMarksDecide :
    (∀ i < 2 + 2 * Variant.b12.bits, (holding 27 v1).read i = .ok (v1.getD i 0)) ∧
    (∀ i < 2 + 2 * Variant.b12.bits, (holding 27 crooked).read i = .ok (crooked.getD i 0)) ∧
    (∀ r ∈ [v1, crooked], 1800 < tdiff (r.getD 1 0) (r.getD 0 0) ∧ tdiff (r.getD 1 0) (r.getD 0 0) < 3000 ∧
      350 < tdiff (r.getD 2 0) (r.getD 1 0) ∧ tdiff (r.getD 2 0) (r.getD 1 0) < 1000) ∧
    (∀ k < Variant.b12.bits, tdiff (v1.getD (3 + 2 * k) 0) (v1.getD (2 + 2 * k) 0) > 900 ↔
      tdiff (crooked.getD (3 + 2 * k) 0) (crooked.getD (2 + 2 * k) 0) > 900) ∧
    tdiff (crooked.getD 3 0) (crooked.getD 2 0) = -5 := by
  refine ⟨?_, ?_, ?_, ?_, by decide⟩
  · intro i hi; have : i < 26 := hi; interval_cases i <;> rfl
  · intro i hi; have : i < 26 := hi; interval_cases i <;> rfl
  · intro r hr
    simp only [List.mem_cons, List.not_mem_nil, or_false] at hr
    rcases hr with rfl | rfl <;> decide
  · intro k hk; have : k < 12 := hk; interval_cases k <;> decide

theorem witness_UnpackExtractsAndChecksTheTopField :
    (0x2BA : Word).toNat < 2 ^ 31 ∧ (0x103A : Word).toNat < 2 ^ 31 ∧ (0x7FFFFFFF : Word).toNat < 2 ^ 31 := by decide

theorem witness_TimeDifferenceIsElapsedTime : 0 < 2 ^ 29 ∧ 2 ^ 29 - 1 < 2 ^ 29 := by decide

/-- VK19: the train of V1 at another origin, the clock wrapping after the first edge. -/
theorem witness_ClockOriginDoesNotMatter :
    (∀ i < 26, (holding 27 v1).read i = .ok (readingAt ((edgesOf 1000 v1Train).getD i 0))) ∧
    (∀ i < 26, (holding 27 ((edgesOf 1073740824 v1Train).map readingAt)).read i =
      .ok (readingAt ((edgesOf 1000 v1Train).getD i 0 + 1073739824))) := by
  refine ⟨?_, ?_⟩ <;> intro i hi <;> interval_cases i <;> rfl

/-- The readings of a train fill the slots in order. -/
theorem read_holding {ts : List Word} {size j : Nat} {t : Word} (h : ts[j]? = some t) (hs : j < size) :
    (holding size ts).read j = .ok t := by
  have key : ∀ (ts : List Word) (k j : Nat) (t : Word), ts[j]? = some t → lookupCell (k + j) (filled k ts) = some t := by
    intro ts
    induction ts with
    | nil => intro k j t h; simp at h
    | cons u us ih =>
      intro k j t h
      cases j with
      | zero => simpa [filled, lookupCell] using h
      | succ j =>
        have := ih (k + 1) j t (by simpa using h)
        rw [show k + 1 + j = k + (j + 1) by omega] at this
        simp [filled, lookupCell, this]
  have := key ts 0 j t h
  rw [Nat.zero_add] at this
  simp [Memory.read, holding, hs, this]

/-- Every field at its greatest value, the clock wrapping inside the block. -/
theorem witness_EncodedTrainDecodesToItsFields :
    fieldsInRange .b20 0x1F 0x7F 0xFF = true ∧
    ∀ j e, (edgesOf 1073740824 (trainOf .b20 (pack .b20 0x1F 0x7F 0xFF)))[j]? = some e →
      (holding 43 ((edgesOf 1073740824 (trainOf .b20 (pack .b20 0x1F 0x7F 0xFF))).map readingAt)).read j =
        .ok (readingAt e) := by
  refine ⟨by decide, fun j e h => read_holding (by rw [List.getElem?_map, h]; rfl) ?_⟩
  have := (List.getElem?_eq_some_iff.1 h).1
  have hl : (edgesOf 1073740824 (trainOf .b20 (pack .b20 0x1F 0x7F 0xFF))).length = 42 := by decide
  omega

/-- VL2: latencies 0 and 249 in turn. -/
theorem witness_RoundTripToleratesLatency :
    fieldsInRange .b12 0x05 0x3A 0 = true ∧
    (∀ j, j + 1 < 2 + 2 * Variant.b12.bits → (j + 1) % 2 * 249 < j % 2 * 249 + 250 ∧ j % 2 * 249 < (j + 1) % 2 * 249 + 250) ∧
    ∀ j e, (edgesOf 1000 (trainOf .b12 (pack .b12 0x05 0x3A 0)))[j]? = some e →
      (holding 27 ((edgesOf 1000 (trainOf .b12 (pack .b12 0x05 0x3A 0))).mapIdx fun j e =>
        readingAt (e + j % 2 * 249))).read j = .ok (readingAt (e + j % 2 * 249)) := by
  refine ⟨by decide, fun j _ => by omega, fun j e h => read_holding (by rw [List.getElem?_mapIdx, h]; rfl) ?_⟩
  have := (List.getElem?_eq_some_iff.1 h).1
  have hl : (edgesOf 1000 (trainOf .b12 (pack .b12 0x05 0x3A 0))).length = 26 := by decide
  omega

/-- VL4 (inside the conditions) and VL3 (outside): the hypotheses hold of both. -/
theorem witness_LatencyToleranceIsExact :
    fieldsInRange .b12 0x05 0x3A 0 = true ∧
    (∀ l ∈ [(fun j => (j + 1) % 2 * 250), fun j => j % 2 * 301],
      (∀ j : Nat, j + 1 < 2 + 2 * Variant.b12.bits → l (j + 1) < l j + 2 ^ 28 ∧ l j < l (j + 1) + 2 ^ 28) ∧
      ∀ j e, (edgesOf 1000 (trainOf .b12 (pack .b12 0x05 0x3A 0)))[j]? = some e →
        (holding 27 ((edgesOf 1000 (trainOf .b12 (pack .b12 0x05 0x3A 0))).mapIdx fun j e =>
          readingAt (e + l j))).read j = .ok (readingAt (e + l j))) := by
  refine ⟨by decide, fun l hl => ⟨?_, fun j e h => read_holding (by rw [List.getElem?_mapIdx, h]; rfl) ?_⟩⟩
  · simp only [List.mem_cons, List.not_mem_nil, or_false] at hl
    rcases hl with rfl | rfl <;> intro j _ <;> constructor <;> dsimp only <;> omega
  · have := (List.getElem?_eq_some_iff.1 h).1
    have hl : (edgesOf 1000 (trainOf .b12 (pack .b12 0x05 0x3A 0))).length = 26 := by decide
    omega

/-- A receiver and a transmitter of one variant, the pulse memory just large enough. -/
theorem witness_LoopbackDeliversTheCommand :
    Inv { ready with tx := (sender none []).tx, env := (sender (some 13) []).env } ∧ ready.rx.phase = .idle ∧
    (sender none []).tx.conf = true ∧ (sender none []).tx.cfg.bits = ready.rx.cfg.bits ∧
    fieldsInRange ready.rx.cfg.bits 0x1F 0x7F 0 = true ∧
    (sender (some 13) []).env.params.ptCap = some 13 ∧ 1 + ready.rx.cfg.bits.bits ≤ 13 :=
  ⟨inv_of (by decide), by decide, by decide, by decide, by decide, by decide, by decide⟩

/-- Equal to the threshold, one below it with and without a handler (VD8, VD6, VD4). -/
theorem witness_DocbDispatchesByThreshold :
    State.reset.rx.phase = .unconf ∧ (at12 .closed []).rx.phase = .closed ∧ ready.rx.phase = .idle ∧
    (at12 .armed v1).rx.phase = .armed ∧ (at12 .fired v1).rx.phase = .fired ∧
    (16 : Word).toInt ≥ (16 : Word).toInt ∧ ((-2 : Word).toInt < (-1 : Word).toInt ∧ ready.rx.errh ≠ 0) ∧
    ((15 : Word).toInt < (16 : Word).toInt ∧ (ready.setErrh 0).rx.errh = 0) := by decide

theorem witness_DecodeSendsTriplesToCallbackAndCodesToHandler :
    Inv (at12 .fired v1) ∧ (at12 .fired v1).rx.phase = .fired ∧ Inv (at12 .fired []) ∧ (at12 .fired []).rx.phase = .fired :=
  ⟨inv_of (by decide), rfl, inv_of (by decide), rfl⟩

theorem witness_ErrfnReplacesTheHandlerAtOnce :
    ready.rx.phase = .idle ∧ (-1 : Word).toInt < (0 : Word).toInt := by decide

theorem witness_TxinitConstructsTheTransmitterOrRefuses :
    (sender none []).tx.conf = true ∧
    (State.reset.tx.conf = false ∧ (16 : Word) ≠ 12 ∧ (16 : Word) ≠ 15 ∧ (16 : Word) ≠ 20) ∧
    (12 : Word) = BitVec.ofNat 32 Variant.b12.bits ∧ (15 : Word) = BitVec.ofNat 32 Variant.b15.bits ∧
    (20 : Word) = BitVec.ofNat 32 Variant.b20.bits := by decide

/-- Not constructed; one below the capacity; at it. -/
theorem witness_AppendAddsOnePairAtTheEnd :
    State.reset.tx.conf = false ∧ (sender (some 2) [⟨2400, 600⟩]).tx.conf = true ∧
    (∀ cap, (sender (some 2) [⟨2400, 600⟩]).env.params.ptCap = some cap →
      (sender (some 2) [⟨2400, 600⟩]).tx.pulses.length < cap) ∧
    (sender (some 1) [⟨2400, 600⟩]).env.params.ptCap = some (sender (some 1) [⟨2400, 600⟩]).tx.pulses.length := by
  refine ⟨rfl, rfl, ?_, rfl⟩
  rintro cap ⟨⟩; decide

/-- Not constructed; just enough room; one pair too little. -/
theorem witness_TxBuildsExactlyOneTrain :
    State.reset.tx.conf = false ∧ (sender (some 13) []).tx.conf = true ∧
    (∀ cap, (sender (some 13) []).env.params.ptCap = some cap → 1 + (sender (some 13) []).tx.cfg.bits.bits ≤ cap) ∧
    (sender (some 12) []).env.params.ptCap = some 12 ∧ 12 < 1 + (sender (some 12) []).tx.cfg.bits.bits := by
  refine ⟨rfl, rfl, ?_, rfl, by decide⟩
  rintro cap ⟨⟩; decide

theorem witness_PlayHandsOverTheTrain : State.reset.tx.conf = false ∧ (sender none v1Train).tx.conf = true := by decide

/-- The times of a link that leaves the default timeouts, a lateness of `late` and a decode of 500 just enough room. -/
def tightLink (late : Nat) (b : Variant) : LinkTiming :=
  let t := (proto Params.default b).tblock
  { repeatGap := t + 1, nextBlock := t + late + 501, decodeTime := 500 }

/-- The last edge of the longest block, timeouts one above that bound and one below the gap, and the defaults with a link and a
lateness at their limits. -/
theorem witness_TimeoutExceedsTheWorstBlock :
    25000 ∈ edgesOf 1000 (trainOf .b12 0xFFF) ∧
    paramsOk (fun b => ⟨worstBlock b + 2, worstBlock b + 9, 7⟩)
      { p12 := ⟨24001, 1, 0⟩, p15 := ⟨29401, 1, 0⟩, p20 := ⟨38401, 1, 0⟩, ptCap := some 21, jitter := 0 } = true ∧
    (∀ b, (proto Params.default b).tblock < (tightLink 536830911 b).repeatGap) ∧
    (∀ b, (proto Params.default b).tblock + 536830911 + (tightLink 536830911 b).decodeTime <
      (tightLink 536830911 b).nextBlock) ∧
    (∀ b, (proto Params.default b).tblock + 536830911 < 2 ^ 29) := by
  refine ⟨by decide, by decide, fun b => ?_, fun b => ?_, fun b => ?_⟩ <;> cases b <;> decide

/-- The defaults, with a link that leaves them just enough room; the last edge of a train; the latest expiry and decode and the
earliest next block. -/
theorem witness_FrameTimeoutKeepsBlocksApart :
    Inv ready ∧ ready.rx.phase = .idle ∧ paramsOk (tightLink 0) ready.env.params = true ∧
    24000 ∈ edgesOf ready.env.now (trainOf ready.rx.cfg.bits 0xFFF) ∧
    (28000 : Nat) ≤ 28000 + ready.env.params.jitter ∧ (28500 : Nat) ≤ 28000 + (tightLink 0 .b12).decodeTime ∧
    ready.env.now + (tightLink 0 .b12).nextBlock ≤ 28501 :=
  ⟨inv_of (by decide), rfl, by decide, by decide, by decide, by decide, by decide⟩

/-- Rules R9 and R210: a timeout that reaches the gap before a repeat block, one whose lateness and decode reach the next block,
and one that is only as long as the longest block are refused. -/
theorem test_timeout_bounds :
    frameTimeoutOk ⟨28001, 28801, 500⟩ 300 .b12 28000 = true ∧ frameTimeoutOk ⟨28000, 28801, 500⟩ 300 .b12 28000 = false ∧
    frameTimeoutOk ⟨28001, 28800, 500⟩ 300 .b12 28000 = false ∧ frameTimeoutOk ⟨28001, 28801, 500⟩ 300 .b12 24000 = false := by
  decide

/-- Every digit that a word is written with is read as its value, and a small one as its capital (rules R70 and R92). -/
theorem test_digits :
    (∀ n < 16, digitValue (hexDigit n) = some n) ∧ digitValue 'f' = some 15 ∧ digitValue 'g' = none ∧ digitValue ':' = none := by
  decide

/-- Operations that write: the receiver's construction, an edge, the handler, the transmitter's construction, an append. -/
theorem witness_RegistersChangeOnlyByTheirWriters :
    goesTo (exec (.rxinit 15 1 2) State.reset) (fun t => t.rx.phase != State.reset.rx.phase &&
      t.rx.times != State.reset.rx.times && t.rx.cfg != State.reset.rx.cfg && t.rx.cb != State.reset.rx.cb) = true ∧
    goesTo (exec (.edge 5) ready) (fun t => t.rx.edge != ready.rx.edge && t.rx.deadline != ready.rx.deadline) = true ∧
    goesTo (exec (.errfn 5) ready) (fun t => t.rx.errh != ready.rx.errh) = true ∧
    goesTo (exec (.txinit 15) State.reset) (fun t => t.tx.conf != State.reset.tx.conf) = true ∧
    goesTo (exec (.append 1 2) (sender none [])) (fun t => t.tx.pulses != []) = true := by decide

theorem witness_ReceiverAndTransmitterShareNoState :
    (isReceive (.edge 5) = true ∧ goesTo (exec (.edge 5) ready) (fun _ => true) = true) ∧
    exec (.edge 5) (at12 .fired v1) = .fault .raceFault ∧
    (isReceive .play = false ∧ goesTo (exec .play (sender none [])) (fun _ => true) = true) ∧
    exec (.append 1 1) (sender (some 0) []) = .fault .txOverflow := by
  refine ⟨⟨rfl, by decide⟩, rfl, ⟨rfl, by decide⟩, rfl⟩

theorem witness_ConfigurationIsFixedByConstruction :
    goesTo (exec (.rxinit 15 1 2) ready) (fun _ => true) = true ∧ ready.rx.phase ≠ .unconf ∧
    goesTo (exec (.txinit 15) (sender none [])) (fun _ => true) = true ∧ (sender none []).tx.conf = true := by decide

theorem witness_ConfigErrorsChangeNothingElse :
    goesTo (exec (.rxinit 13 1 2) State.reset) (fun t => t.out.errors != State.reset.out.errors) = true ∧
    goesTo (exec (.txinit 15) (sender none [])) (fun t => t.out.errors != (sender none []).out.errors) = true ∧
    goesTo (exec (.tx 5 0x3A 0) State.reset) (fun t => t.out.errors != State.reset.out.errors) = true ∧
    goesTo (exec .fire ready) (fun t => t.out.errors == ready.out.errors) = true := by decide

theorem witness_EventsComeOneAtATimeFromThreeOperations :
    goesTo (exec .decode (at12 .fired v1)) (fun t => t.out.events.length == 1) = true ∧
    goesTo (exec (.docb (-3) 0 0 0) ready) (fun t => t.out.events.length == 1) = true ∧
    goesTo (exec .play (sender none [])) (fun t => t.out.events.length == 1) = true ∧
    goesTo (exec .fire ready) (fun t => t.out.events == []) = true := by decide

theorem witness_OnlyResetUndoesConstruction :
    (∀ T rest, (waiting (at12 .closed v1) [delivery 5 .fire]).env.inbox ≠ .rst T :: rest) ∧
    ({ ready with faulted := true } : State).faulted = true ∧
    goesTo (step (waiting (at12 .closed v1) [delivery 5 .fire])) (fun _ => true) = true ∧
    (at12 .closed v1).rx.phase = .closed ∧ (at12 .closed v1).rx.phase ≠ .unconf ∧
    goesTo (step (waiting (sender none []) [delivery 5 (.txinit 15)])) (fun _ => true) = true ∧
    (sender none []).tx.conf = true := by
  refine ⟨?_, rfl, by decide, rfl, by decide, by decide, rfl⟩
  intro T rest h
  simp [waiting, delivery] at h

/-- An aborted block of two edges in front of the readings of the block before it. -/
theorem witness_StaleReadingsAreUnobservable :
    Inv (at12 .fired [5, 6]) ∧
    (∀ i < (at12 .fired [5, 6]).rx.edge, (holding 27 (5 :: 6 :: v1.drop 2)).read i = (at12 .fired [5, 6]).rx.times.read i) ∧
    goesTo (exec .decode (at12 .fired [5, 6])) (fun _ => true) = true := by
  refine ⟨inv_of (by decide), ?_, by decide⟩
  intro i hi
  have : i < 2 := hi
  interval_cases i <;> rfl

end Sys2Proof.Tests
end

section
/-! The time difference of clock readings (rule R13): its range, and obligation O35. -/

namespace Sys2Proof.Machine

/-- Rule R13's result range, the signed numbers of `CLK_W` bits. -/
theorem tdiff_range (a b : Word) : -(2 ^ 29) ≤ tdiff a b ∧ tdiff a b < 2 ^ 29 := by
  have hnonneg := Int.emod_nonneg (a.toInt - b.toInt + 2 ^ 29) (b := 2 ^ 30) (by decide)
  have hlt := Int.emod_lt_of_pos (a.toInt - b.toInt + 2 ^ 29) (b := 2 ^ 30) (by decide)
  rw [tdiff_eq]
  omega

/-- Elapsed time below half the clock's range is what the readings differ by, wherever the clock started. -/
theorem tdiff_readingAt_elapsed {T d : Nat} (hd : d < 2 ^ 29) :
    tdiff (readingAt (T + d)) (readingAt T) = d := by
  have hdiff : tdiff (readingAt (T + d)) (readingAt T) = (T + d : Nat) - T :=
    tdiff_readingAt (by omega) (by omega)
  rw [hdiff]
  omega

/-- Settles O35: the law on readings of two times, the range of the remainder, and the formula of rule R13. -/
theorem timeDifferenceIsElapsedTime : Obligations.TimeDifferenceIsElapsedTime :=
  ⟨fun _ _ => tdiff_readingAt_elapsed, tdiff_range, tdiff_eq⟩

end Sys2Proof.Machine
end

section
/-! The values after reset (rule R39): obligation O8. -/

namespace Sys2Proof.Machine

/-- Rule R53 for reads. -/
theorem read_of_size_le {m : Memory} {i : Nat} (h : m.size ≤ i) : m.read i = .error .indexFault := by
  simp [Memory.read, Nat.not_lt.2 h]

/-- Settles O8: the reset state is a literal; its timestamp memory has size 0, so every read is outside the array. -/
theorem resetLeavesTheTabledValues : Obligations.ResetLeavesTheTabledValues :=
  ⟨rfl, rfl, rfl, fun i => read_of_size_le (Nat.zero_le i), rfl, rfl, rfl⟩

end Sys2Proof.Machine
end

section
/-! The receiver and the transmitter share no state (rule R21): obligation O54. For each operation one equation says that
replacing the other half of IRB and performing the operation commute. That the operation leaves that half alone follows from
the equation, by replacing it with itself. -/

namespace Sys2Proof.Machine

/-- The state with another transmitter. -/
def State.withTx (s : State) (x : Tx) : State := { s with tx := x }

/-- The state with another receiver. -/
def State.withRx (s : State) (x : Rx) : State := { s with rx := x }

@[simp] theorem withTx_rx (s : State) (x : Tx) : (s.withTx x).rx = s.rx := rfl

@[simp] theorem withTx_env (s : State) (x : Tx) : (s.withTx x).env = s.env := rfl

@[simp] theorem withRx_tx (s : State) (x : Rx) : (s.withRx x).tx = s.tx := rfl

@[simp] theorem withRx_env (s : State) (x : Rx) : (s.withRx x).env = s.env := rfl

/-- The outcome with `g` applied to the next state, if there is one. -/
def mapNext (g : State → State) : Host.Outcome State Fault Refusal → Host.Outcome State Fault Refusal
  | .next t => .next (g t)
  | .fault f => .fault f
  | .refused r => .refused r

@[simp] theorem mapNext_next (g : State → State) (t : State) : mapNext g (.next t) = .next (g t) := rfl

@[simp] theorem mapNext_fault (g : State → State) (f : Fault) : mapNext g (.fault f) = .fault f := rfl

/-! ### The updates of one half and the other half -/

@[simp] theorem setPhase_withTx (s : State) (x : Tx) (p : Phase) :
    (s.withTx x).setPhase p = (s.setPhase p).withTx x := rfl

@[simp] theorem setEdge_withTx (s : State) (x : Tx) (n : Nat) :
    (s.withTx x).setEdge n = (s.setEdge n).withTx x := rfl

@[simp] theorem setDeadline_withTx (s : State) (x : Tx) (t : Nat) :
    (s.withTx x).setDeadline t = (s.setDeadline t).withTx x := rfl

@[simp] theorem setTimes_withTx (s : State) (x : Tx) (m : Memory) :
    (s.withTx x).setTimes m = (s.setTimes m).withTx x := rfl

@[simp] theorem setErrh_withTx (s : State) (x : Tx) (h : Word) :
    (s.withTx x).setErrh h = (s.setErrh h).withTx x := rfl

@[simp] theorem constructRx_withTx (s : State) (x : Tx) (c : Cfg) (cb args : Word) :
    (s.withTx x).constructRx c cb args = (s.constructRx c cb args).withTx x := rfl

@[simp] theorem emit_withTx (s : State) (x : Tx) (e : Event) :
    (s.withTx x).emit e = (s.emit e).withTx x := rfl

@[simp] theorem returnError_withTx (s : State) (x : Tx) (op : Instr) (r : ConfigReason) :
    (s.withTx x).returnError op r = (s.returnError op r).withTx x := rfl

@[simp] theorem setPulses_withRx (s : State) (x : Rx) (ps : List Pair) :
    (s.withRx x).setPulses ps = (s.setPulses ps).withRx x := rfl

@[simp] theorem constructTx_withRx (s : State) (x : Rx) (c : Cfg) :
    (s.withRx x).constructTx c = (s.constructTx c).withRx x := rfl

@[simp] theorem emit_withRx (s : State) (x : Rx) (e : Event) :
    (s.withRx x).emit e = (s.emit e).withRx x := rfl

@[simp] theorem returnError_withRx (s : State) (x : Rx) (op : Instr) (r : ConfigReason) :
    (s.withRx x).returnError op r = (s.returnError op r).withRx x := rfl

/-! ### The receive operations and the transmitter -/

theorem recordEdge_withTx (t : Word) (s : State) (x : Tx) :
    recordEdge t (s.withTx x) = (recordEdge t s).map (·.withTx x) := by
  cases hw : s.rx.times.write s.rx.edge t with
  | error f => simp [recordEdge, hw, Except.map]
  | ok m =>
    by_cases h0 : s.rx.edge = 0
    · rw [h0] at hw
      simp [recordEdge, hw, h0, Except.map]
    · simp [recordEdge, hw, h0, Except.map]

@[simp] theorem dispatch_withTx (cmd addr ext thresh : Word) (s : State) (x : Tx) :
    dispatch cmd addr ext thresh (s.withTx x) = (dispatch cmd addr ext thresh s).withTx x := by
  cases hp : s.rx.phase with
  | unconf | closed => simp [dispatch, hp]
  | idle | armed | fired =>
    by_cases hq : passes cmd thresh
    · simp [dispatch, hp, hq]
    · by_cases he : s.rx.errh = 0#32 <;> simp [dispatch, hp, hq, he]

theorem execRxinit_withTx (bits cb args : Word) (s : State) (x : Tx) :
    execRxinit bits cb args (s.withTx x) = mapNext (·.withTx x) (execRxinit bits cb args s) := by
  by_cases hp : s.rx.phase = .unconf
  · cases hv : selectVariant bits <;> simp [execRxinit, hp, hv]
  · simp [execRxinit, hp]

theorem execEdge_withTx (t : Word) (s : State) (x : Tx) :
    execEdge t (s.withTx x) = mapNext (·.withTx x) (execEdge t s) := by
  cases hp : s.rx.phase with
  | unconf | closed | fired => simp [execEdge, hp]
  | idle | armed =>
    by_cases he : s.rx.edge ≤ s.rx.cfg.nedges
    · cases hr : recordEdge t s <;> simp [execEdge, hp, he, recordEdge_withTx, hr, Except.map]
    · simp [execEdge, hp, he]

theorem execFire_withTx (s : State) (x : Tx) :
    execFire (s.withTx x) = mapNext (·.withTx x) (execFire s) := by
  cases hp : s.rx.phase <;> simp [execFire, hp]

theorem execClose_withTx (s : State) (x : Tx) :
    execClose (s.withTx x) = mapNext (·.withTx x) (execClose s) := by
  cases hp : s.rx.phase <;> simp [execClose, hp]

theorem execErrfn_withTx (h : Word) (s : State) (x : Tx) :
    execErrfn h (s.withTx x) = mapNext (·.withTx x) (execErrfn h s) := by
  simp [execErrfn]

theorem execDecode_withTx (s : State) (x : Tx) :
    execDecode (s.withTx x) = mapNext (·.withTx x) (execDecode s) := by
  cases hp : s.rx.phase with
  | unconf | idle | armed | closed => simp [execDecode, hp]
  | fired =>
    cases hd : runDecode s.rx.cfg s.rx.times s.rx.edge <;> simp [execDecode, hp, hd, finishDecode]

theorem execDocb_withTx (cmd addr ext thresh : Word) (s : State) (x : Tx) :
    execDocb cmd addr ext thresh (s.withTx x) = mapNext (·.withTx x) (execDocb cmd addr ext thresh s) := by
  simp [execDocb]

/-- Rule R21 for the receive families: no `tx` field is read or written. -/
theorem exec_withTx {i : Instr} (hi : isReceive i = true) (s : State) (x : Tx) :
    exec i (s.withTx x) = mapNext (·.withTx x) (exec i s) := by
  cases i with
  | rxinit bits cb args => exact execRxinit_withTx bits cb args s x
  | errfn h => exact execErrfn_withTx h s x
  | close => exact execClose_withTx s x
  | edge t => exact execEdge_withTx t s x
  | fire => exact execFire_withTx s x
  | decode => exact execDecode_withTx s x
  | docb cmd addr ext thresh => exact execDocb_withTx cmd addr ext thresh s x
  | txinit _ | append _ _ | tx _ _ _ | play => cases hi

/-! ### The transmit operations and the receiver -/

theorem appendPair_withRx (p : Pair) (s : State) (x : Rx) :
    appendPair p (s.withRx x) = (appendPair p s).map (·.withRx x) := by
  cases hf : pulsesFull s.env.params s.tx.pulses <;> simp [appendPair, hf, Except.map]

theorem appendPairs_withRx (ps : List Pair) (s : State) (x : Rx) :
    appendPairs ps (s.withRx x) = (appendPairs ps s).map (·.withRx x) := by
  induction ps generalizing s with
  | nil => rfl
  | cons p ps ih =>
    cases ha : appendPair p s with
    | error f => simp [appendPairs, appendPair_withRx, ha, Except.map]
    | ok t => simpa [appendPairs, appendPair_withRx, ha, Except.map] using ih t

theorem execTxinit_withRx (bits : Word) (s : State) (x : Rx) :
    execTxinit bits (s.withRx x) = mapNext (·.withRx x) (execTxinit bits s) := by
  cases hc : s.tx.conf with
  | true => simp [execTxinit, hc]
  | false => cases hv : selectVariant bits <;> simp [execTxinit, hc, hv]

theorem execAppend_withRx (mark space : Word) (s : State) (x : Rx) :
    execAppend mark space (s.withRx x) = mapNext (·.withRx x) (execAppend mark space s) := by
  cases hc : s.tx.conf with
  | false => simp [execAppend, hc]
  | true =>
    cases ha : appendPair { mark := mark, space := space } s <;>
      simp [execAppend, hc, appendPair_withRx, ha, Except.map]

theorem execTx_withRx (addr data ext : Word) (s : State) (x : Rx) :
    execTx addr data ext (s.withRx x) = mapNext (·.withRx x) (execTx addr data ext s) := by
  cases hc : s.tx.conf with
  | false => simp [execTx, hc]
  | true =>
    cases ha : appendPairs (trainOf s.tx.cfg.bits (pack s.tx.cfg.bits addr data ext)) (s.setPulses []) <;>
      simp [execTx, hc, appendPairs_withRx, ha, Except.map]

theorem execPlay_withRx (s : State) (x : Rx) :
    execPlay (s.withRx x) = mapNext (·.withRx x) (execPlay s) := by
  cases hc : s.tx.conf <;> simp [execPlay, hc]

/-- Rule R21 for the transmit family: no `rx` field is read or written. -/
theorem exec_withRx {i : Instr} (hi : isReceive i = false) (s : State) (x : Rx) :
    exec i (s.withRx x) = mapNext (·.withRx x) (exec i s) := by
  cases i with
  | txinit bits => exact execTxinit_withRx bits s x
  | append mark space => exact execAppend_withRx mark space s x
  | tx addr data ext => exact execTx_withRx addr data ext s x
  | play => exact execPlay_withRx s x
  | rxinit _ _ _ | errfn _ | close | edge _ | fire | decode | docb _ _ _ _ => cases hi

/-! ### Noninterference -/

/-- A receive operation leaves the transmitter alone: replaced by itself, it comes back. -/
theorem exec_receive_tx {i : Instr} (hi : isReceive i = true) {s t : State} (h : exec i s = .next t) :
    t.tx = s.tx := by
  have hself : exec i s = mapNext (·.withTx s.tx) (exec i s) := exec_withTx hi s s.tx
  rw [h, mapNext_next, Host.Outcome.next.injEq] at hself
  rw [hself]; rfl

/-- A transmit operation leaves the receiver alone: replaced by itself, it comes back. -/
theorem exec_transmit_rx {i : Instr} (hi : isReceive i = false) {s t : State} (h : exec i s = .next t) :
    t.rx = s.rx := by
  have hself : exec i s = mapNext (·.withRx s.rx) (exec i s) := exec_withRx hi s s.rx
  rw [h, mapNext_next, Host.Outcome.next.injEq] at hself
  rw [hself]; rfl

/-- Settles O54: every operation commutes with replacing the other half of IRB. -/
theorem receiverAndTransmitterShareNoState : Obligations.ReceiverAndTransmitterShareNoState := by
  refine ⟨fun i s x hi => ⟨fun t h => ⟨exec_receive_tx hi h, ?_⟩, fun f h => ?_⟩,
    fun i s x hi => ⟨fun t h => ⟨exec_transmit_rx hi h, ?_⟩, fun f h => ?_⟩⟩
  · exact (exec_withTx hi s x).trans (congrArg (mapNext _) h)
  · exact (exec_withTx hi s x).trans (congrArg (mapNext _) h)
  · exact (exec_withRx hi s x).trans (congrArg (mapNext _) h)
  · exact (exec_withRx hi s x).trans (congrArg (mapNext _) h)

end Sys2Proof.Machine
end

section
/-! Writing and reading back a timestamp slot (rule R52): obligation O16. -/

namespace Sys2Proof.Machine

/-- Settles O16: a write inside the array succeeds, and what a successful write leaves is said by the memory's laws. -/
theorem memoryReturnsWhatWasWritten : Obligations.MemoryReturnsWhatWasWritten := by
  intro m i v hi
  have hw := write_of_lt hi v
  exact ⟨_, hw, write_size hw, read_write_same hw, fun _ => read_write_other hw⟩

end Sys2Proof.Machine
end

section
/-! The decoder and the encoder are inverse (rules R72 to R75): obligations O1, O2 and O3. Each of the two meets the other
on one side in a lemma of its own: an operation's word decodes to it, and what a word decodes to has that word. -/

namespace Sys2Proof

/-! ### Decoding -/

/-- The decoder on a word whose `OP` is a code of the table. -/
theorem decodeWord_of_fieldOp {w : OpWord} {k : Opcode} (h : fieldOp w = k.code) :
    decodeWord w = operationOf k (fieldA w) (fieldB w) (fieldC w) (fieldD w) := by
  simp only [decodeWord, h, opcodeOf_code]

/-- A value of `OP` is reserved exactly when it is the code of no operation (rule R74). -/
theorem opcodeOf_eq_none {op : BitVec 8} : opcodeOf op = none ↔ ∀ k : Opcode, op ≠ k.code := by
  simp only [Option.eq_none_iff_forall_ne_some, ne_eq, opcodeOf_eq_some]

theorem decodeWord_of_reserved {w : OpWord} (h : opcodeOf (fieldOp w) = none) :
    decodeWord w = .error .reservedOp := by
  simp only [decodeWord, h]

/-- A word that decodes has a code of the table. -/
theorem decodeWord_ok_opcode {w : OpWord} {i : Instr} (h : decodeWord w = .ok i) :
    ∃ k : Opcode, fieldOp w = k.code ∧ operationOf k (fieldA w) (fieldB w) (fieldC w) (fieldD w) = .ok i := by
  cases hk : opcodeOf (fieldOp w) with
  | none => rw [decodeWord_of_reserved hk] at h; cases h
  | some k =>
    have hop : fieldOp w = k.code := opcodeOf_eq_some.1 hk
    exact ⟨k, hop, (decodeWord_of_fieldOp hop).symm.trans h⟩

/-- The operation read from a code and four operands is well formed, and its word is that code with those operands: the
decoder drops no field that is not zero (rule R75). -/
theorem wf_and_encode_of_operationOf {k : Opcode} {a b c d : Word} {i : Instr} (h : operationOf k a b c d = .ok i) :
    i.wf = true ∧ mkWord k.code a b c d = encode i := by
  cases k with
  | docb => cases h; exact ⟨rfl, rfl⟩
  | edge =>
    by_cases ha : isReading a = true
    · rw [operationOf, if_pos ha] at h
      obtain ⟨hzero, rfl⟩ := ifZero_eq_ok.1 h
      simp only [List.forall_mem_cons] at hzero
      exact ⟨ha, by simp [hzero, encode, Opcode.code]⟩
    · rw [operationOf, if_neg ha] at h
      cases h
  | rxinit | errfn | close | txinit | append | tx | play | fire | decode =>
    obtain ⟨hzero, rfl⟩ := ifZero_eq_ok.1 h
    simp only [List.forall_mem_cons] at hzero
    exact ⟨rfl, by simp [hzero, encode, Opcode.code]⟩

/-! ### Encoding -/

theorem fieldOp_encode (i : Instr) : fieldOp (encode i) = i.opcode.code := by
  cases i <;> exact fieldOp_mkWord _ _ _ _ _

/-- A well-formed operation's word decodes to it. -/
theorem decodeWord_encode {i : Instr} (h : i.wf = true) : decodeWord (encode i) = .ok i := by
  rw [decodeWord_of_fieldOp (fieldOp_encode i)]
  cases i with
  | edge t =>
    have ht : isReading t = true := h
    simp [encode, Instr.opcode, operationOf, ifZero, ht]
  | rxinit _ _ _ | errfn _ | close | txinit _ | append _ _ | tx _ _ _ | play | fire | decode | docb _ _ _ _ =>
    simp [encode, Instr.opcode, operationOf, ifZero]

/-- Rule R75 in one equivalence. -/
theorem decodeWord_eq_ok {w : OpWord} {i : Instr} : decodeWord w = .ok i ↔ i.wf = true ∧ w = encode i := by
  constructor
  · intro h
    obtain ⟨k, hop, hk⟩ := decodeWord_ok_opcode h
    obtain ⟨hwf, he⟩ := wf_and_encode_of_operationOf hk
    rw [← hop, mkWord_fields] at he
    exact ⟨hwf, he⟩
  · rintro ⟨hwf, rfl⟩
    exact decodeWord_encode hwf

/-- Settles O1: the equivalence of decoder and encoder, and the fields of each format's word. -/
theorem legalWordsAndOperationsCorrespond : Obligations.LegalWordsAndOperationsCorrespond := by
  refine ⟨fun _ _ => decodeWord_eq_ok, ?_, ?_, ?_, ?_, ?_⟩ <;> simp [encode]

end Sys2Proof

namespace Sys2Proof.Machine

/-! ### Ports -/

/-- The operations that a port delivers as words. -/
theorem decodeOn_eq_ok {p : Port} {w : OpWord} {i : Instr} :
    decodeOn p w = .ok i ↔ i.wf = true ∧ w = encode i ∧ i.port = p := by
  rw [decodeOn_ok, decodeWord_eq_ok, and_assoc]

theorem decodeOn_encode {i : Instr} (h : i.wf = true) : decodeOn i.port (encode i) = .ok i :=
  decodeOn_eq_ok.2 ⟨h, rfl, rfl⟩

/-- A word that is no operation's is refused for the same reason on every port. -/
theorem decodeOn_of_error {w : OpWord} {why : IllegalWord} (h : decodeWord w = .error why) (p : Port) :
    decodeOn p w = .error why := by
  simp only [decodeOn, h]

/-- An `EDGE` whose operand is no clock reading is illegal (rule R71). -/
theorem decodeWord_encode_edge_of_not_reading {t : Word} (h : isReading t = false) :
    decodeWord (encode (.edge t)) = .error .badReading := by
  rw [decodeWord_of_fieldOp (fieldOp_encode _)]
  simp [encode, Instr.opcode, operationOf, h]

/-- The pin's word on both sides of the clock's range. -/
theorem decodeOn_encode_edge (t : Word) :
    decodeOn .pin (encode (.edge t)) = if t.toNat < 2 ^ 30 then .ok (.edge t) else .error .badReading := by
  by_cases h : t.toNat < 2 ^ 30
  · rw [if_pos h]
    exact decodeOn_encode (i := .edge t) (decide_eq_true h)
  · rw [if_neg h]
    exact decodeOn_of_error (decodeWord_encode_edge_of_not_reading (decide_eq_false h)) .pin

theorem code_mem_table (k : Opcode) :
    k.code ∈ [0x01, 0x02, 0x03, 0x10, 0x11, 0x12, 0x13, 0x80, 0x81, 0x82, 0x83] := by
  cases k <;> decide

/-- Settles O2: each row is an operation's word on its own port; a code outside the table is no operation's. -/
theorem operationCodesAreThoseOfTheTable : Obligations.OperationCodesAreThoseOfTheTable := by
  intro a b c d
  refine ⟨decodeOn_encode (i := .rxinit a b c) rfl, decodeOn_encode (i := .errfn a) rfl,
    decodeOn_encode (i := .close) rfl, decodeOn_encode (i := .txinit a) rfl,
    decodeOn_encode (i := .append a b) rfl, decodeOn_encode (i := .tx a b c) rfl,
    decodeOn_encode (i := .play) rfl, decodeOn_encode_edge a, decodeOn_encode (i := .fire) rfl,
    decodeOn_encode (i := .decode) rfl, decodeOn_encode (i := .docb a b c d) rfl, fun op p hop => ?_⟩
  have hnone : opcodeOf op = none := opcodeOf_eq_none.2 fun k hk => hop (hk ▸ code_mem_table k)
  exact decodeOn_of_error (decodeWord_of_reserved (by rw [fieldOp_mkWord, hnone])) p

/-! ### Refused words -/

/-- The step on a word that its port does not decode (rule R74). -/
theorem step_of_decodeOn_error {s : State} {T : Nat} {p : Port} {w : OpWord} {rest : List Input} {why : IllegalWord}
    (hf : s.faulted = false) (hi : s.env.inbox = .word T p w :: rest) (hd : decodeOn p w = .error why) :
    step s = .refused (.illegalWord why) := by
  simp [step, takeInput_cons hi, hf, hd]

theorem settle_refused {s : State} {i : Input} {rest : List Input} (hi : s.env.inbox = i :: rest) (r : Refusal) :
    settle s (.refused r) = { s with env := { s.env with inbox := rest } } := by
  simp [settle, dropInput, hi]

/-- Settles O3: a word that decodes on its port is that of a well-formed operation, host to host or event to event; any other
is refused by name, and a refusal takes nothing but the word. -/
theorem illegalWordsAreRefusedAndChangeNothing : Obligations.IllegalWordsAreRefusedAndChangeNothing := by
  intro s T p w rest hf hi hillegal
  cases hd : decodeOn p w with
  | ok i =>
    obtain ⟨hwf, he, hp⟩ := decodeOn_eq_ok.1 hd
    exact absurd ⟨hwf, he, by rw [hp]⟩ (hillegal i)
  | error why =>
    have hstep : step s = .refused (.illegalWord why) := step_of_decodeOn_error hf hi hd
    exact ⟨⟨why, hstep⟩, by rw [hstep, settle_refused hi]⟩

end Sys2Proof.Machine
end

section
/-! The packed value in numbers (rule R83), and the numbers of the records and of the result codes (rules R85 and R78):
obligations O48, O18 and O42. -/

namespace Sys2Proof.Machine

/-- Masking with `n` ones discards the bits from `n` up. -/
theorem toNat_and_ones (x : Word) {n : Nat} (hn : n ≤ 32) :
    (x &&& BitVec.ofNat 32 (2 ^ n - 1)).toNat = x.toNat % 2 ^ n := by
  have hlt : 2 ^ n - 1 < 2 ^ 32 :=
    (Nat.sub_lt (Nat.two_pow_pos n) Nat.one_pos).trans_le (Nat.pow_le_pow_right (by decide) hn)
  rw [BitVec.toNat_and, BitVec.toNat_ofNat, Nat.mod_eq_of_lt hlt, Nat.and_two_pow_sub_one_eq_mod]

/-- A field placed above `k` bits that are in use adds its value times `2 ^ k`, as long as it fits in the word. -/
theorem toNat_or_shiftLeft {x y : Word} {k : Nat} (hx : x.toNat < 2 ^ k) (hy : y.toNat * 2 ^ k < 2 ^ 32) :
    (x ||| y <<< k).toNat = x.toNat + y.toNat * 2 ^ k := by
  rw [BitVec.toNat_or, BitVec.toNat_shiftLeft, Nat.shiftLeft_eq, Nat.mod_eq_of_lt hy, Nat.or_comm, ← Nat.shiftLeft_eq,
    ← Nat.shiftLeft_add_eq_or_of_lt hx, Nat.add_comm]

/-- The two fields that every variant has: seven bits of data, and `n` bits of address above them. -/
theorem toNat_data_or_addr (data addr : Word) {n : Nat} (hn : n ≤ 8) :
    ((data &&& (0x7F : Word)) ||| ((addr &&& BitVec.ofNat 32 (2 ^ n - 1)) <<< 7)).toNat =
      data.toNat % 2 ^ 7 + addr.toNat % 2 ^ n * 2 ^ 7 := by
  have hdata : (data &&& (0x7F : Word)).toNat = data.toNat % 2 ^ 7 := toNat_and_ones data (n := 7) (by decide)
  have haddr := toNat_and_ones addr (n := n) (by omega)
  have hlt : addr.toNat % 2 ^ n < 2 ^ 8 :=
    (Nat.mod_lt _ (Nat.two_pow_pos n)).trans_le (Nat.pow_le_pow_right (by decide) hn)
  rw [toNat_or_shiftLeft (by omega) (by omega), hdata, haddr]

theorem pack_b12_toNat (addr data ext : Word) :
    (pack .b12 addr data ext).toNat = data.toNat % 2 ^ 7 + addr.toNat % 2 ^ 5 * 2 ^ 7 :=
  toNat_data_or_addr data addr (n := 5) (by decide)

theorem pack_b15_toNat (addr data ext : Word) :
    (pack .b15 addr data ext).toNat = data.toNat % 2 ^ 7 + addr.toNat % 2 ^ 8 * 2 ^ 7 :=
  toNat_data_or_addr data addr (n := 8) (by decide)

/-- The 20 bit value is the 12 bit value with the extra field above it. -/
theorem pack_b20_eq (addr data ext : Word) :
    pack .b20 addr data ext = pack .b12 addr data ext ||| ((ext &&& (0xFF : Word)) <<< 12) := rfl

theorem pack_b20_toNat (addr data ext : Word) :
    (pack .b20 addr data ext).toNat =
      data.toNat % 2 ^ 7 + addr.toNat % 2 ^ 5 * 2 ^ 7 + ext.toNat % 2 ^ 8 * 2 ^ 12 := by
  have hlow := pack_b12_toNat addr data ext
  have hext : (ext &&& (0xFF : Word)).toNat = ext.toNat % 2 ^ 8 := toNat_and_ones ext (n := 8) (by decide)
  rw [pack_b20_eq, toNat_or_shiftLeft (by omega) (by omega), hlow, hext]

/-- Settles O48: one equation for each variant. -/
theorem packMasksAndPlacesTheFields : Obligations.PackMasksAndPlacesTheFields := fun addr data ext =>
  ⟨pack_b12_toNat addr data ext, pack_b15_toNat addr data ext, pack_b20_toNat addr data ext⟩

/-- Settles O18: the records and the defaults are the model's literals. -/
theorem protocolRecordsAreThoseOfTheTable : Obligations.ProtocolRecordsAreThoseOfTheTable :=
  ⟨fun _ => ⟨rfl, rfl, rfl⟩, rfl, rfl, rfl⟩

/-- Settles O42: seven closed numbers. -/
theorem resultCodesAreMinusOneToMinusSeven : Obligations.ResultCodesAreMinusOneToMinusSeven := by
  unfold Obligations.ResultCodesAreMinusOneToMinusSeven
  decide

end Sys2Proof.Machine
end

section
/-! The capture operations in every phase (rules R101 to R107): obligations O19, O22, O23 and O20. One equation for each
operation and each way it goes. -/

namespace Sys2Proof.Machine

/-! ### RXINIT -/

theorem selectVariant_of_ne {bits : Word} (h12 : bits ≠ 12) (h15 : bits ≠ 15) (h20 : bits ≠ 20) :
    selectVariant bits = none := by
  rw [selectVariant, if_neg h12, if_neg h15, if_neg h20]

/-- Rule R54: no slot of a fresh array holds a value. -/
theorem read_fresh_of_lt {n i : Nat} (h : i < n) : (Memory.fresh n).read i = .error .unwrittenRead := by
  simp [Memory.read, lookupCell, h]

theorem exec_rxinit_of_constructed {s : State} (hp : s.rx.phase ≠ .unconf) (bits cb args : Word) :
    exec (.rxinit bits cb args) s = .next (s.returnError (.rxinit bits cb args) .reinit) := by
  simp [exec, execRxinit, hp]

theorem exec_rxinit_of_bad_selector {s : State} {bits : Word} (hp : s.rx.phase = .unconf)
    (hv : selectVariant bits = none) (cb args : Word) :
    exec (.rxinit bits cb args) s = .next (s.returnError (.rxinit bits cb args) .badVariant) := by
  simp [exec, execRxinit, hp, hv]

theorem exec_rxinit_of_variant {s : State} (hp : s.rx.phase = .unconf) (b : Variant) (cb args : Word) :
    exec (.rxinit (BitVec.ofNat 32 b.bits) cb args) s = .next (s.constructRx (proto s.env.params b) cb args) := by
  simp [exec, execRxinit, hp]

/-- Settles O19: the three answers of `RXINIT`; the constructed receiver's array is fresh. -/
theorem rxinitConstructsTheReceiverOrRefuses : Obligations.RxinitConstructsTheReceiverOrRefuses := by
  intro bits cb args s
  refine ⟨rfl, fun hp => exec_rxinit_of_constructed hp bits cb args,
    fun hp h12 h15 h20 => exec_rxinit_of_bad_selector hp (selectVariant_of_ne h12 h15 h20) cb args, ?_⟩
  rintro b hp rfl
  exact ⟨_, exec_rxinit_of_variant hp b cb args, rfl, rfl, rfl, rfl, rfl, rfl,
    fun _ hi => read_fresh_of_lt (Nat.lt_succ_of_le hi), fun _ hi => read_of_size_le hi, rfl, rfl, rfl, rfl⟩

/-! ### FIRE -/

theorem exec_fire_of_waiting {s : State} (hp : s.rx.phase = .armed ∨ s.rx.phase = .idle) :
    exec .fire s = .next (s.setPhase .fired) := by
  rcases hp with hp | hp <;> simp [exec, execFire, hp]

theorem exec_fire_of_not_waiting {s : State}
    (hp : s.rx.phase = .fired ∨ s.rx.phase = .unconf ∨ s.rx.phase = .closed) : exec .fire s = .next s := by
  rcases hp with hp | hp | hp <;> simp [exec, execFire, hp]

/-- Settles O22: the two answers of `FIRE`. -/
theorem fireHandsTheBlockToTheDecoder : Obligations.FireHandsTheBlockToTheDecoder :=
  fun _ => ⟨rfl, exec_fire_of_waiting, exec_fire_of_not_waiting⟩

/-! ### EDGE -/

theorem exec_edge_of_detached {s : State} (hp : s.rx.phase = .unconf ∨ s.rx.phase = .closed) (r : Word) :
    exec (.edge r) s = .next s := by
  rcases hp with hp | hp <;> simp [exec, execEdge, hp]

theorem exec_edge_of_fired {s : State} (hp : s.rx.phase = .fired) (r : Word) :
    exec (.edge r) s = .fault .raceFault := by
  simp [exec, execEdge, hp]

/-- Above the expected count an edge is dropped (rule R103). -/
theorem exec_edge_of_full {s : State} (hp : s.rx.phase = .idle ∨ s.rx.phase = .armed)
    (he : s.rx.cfg.nedges < s.rx.edge) (r : Word) : exec (.edge r) s = .next s := by
  rcases hp with hp | hp <;> simp [exec, execEdge, hp, Nat.not_le.2 he]

/-- The state once a reading has been recorded, the timestamp memory having become `m` (rule R102). -/
def State.recorded (s : State) (m : Memory) : State :=
  { s with rx := { s.rx with
      times := m, edge := s.rx.edge + 1, phase := .armed,
      deadline := if s.rx.edge = 0 then s.env.now + s.rx.cfg.tblock else s.rx.deadline } }

/-- Only the first edge writes the phase: at the others the receiver is ARMED already. -/
theorem recordEdge_of_write {s : State} {r : Word} {m : Memory} (hphase : s.rx.edge ≠ 0 → s.rx.phase = .armed)
    (hw : s.rx.times.write s.rx.edge r = .ok m) : recordEdge r s = .ok (s.recorded m) := by
  simp only [recordEdge, hw]
  by_cases h0 : s.rx.edge = 0
  · simp [h0, State.recorded, State.setTimes, State.setPhase, State.setDeadline, State.setEdge]
  · simp [h0, State.recorded, State.setTimes, State.setEdge, hphase h0]

theorem exec_edge_of_room {s : State} {r : Word} {m : Memory} (hp : s.rx.phase = .idle ∨ s.rx.phase = .armed)
    (hidle : s.rx.phase = .idle → s.rx.edge = 0) (he : s.rx.edge ≤ s.rx.cfg.nedges)
    (hw : s.rx.times.write s.rx.edge r = .ok m) : exec (.edge r) s = .next (s.recorded m) := by
  have hrec : recordEdge r s = .ok (s.recorded m) :=
    recordEdge_of_write (fun h0 => hp.resolve_left (mt hidle h0)) hw
  rcases hp with hp | hp <;> simp [exec, execEdge, hp, he, hrec]

/-- Settles O20: the four answers of `EDGE`; while there is room the counter's slot lies inside the array. -/
theorem edgeRecordsDropsOrRaces : Obligations.EdgeRecordsDropsOrRaces := by
  intro r s hinv
  refine ⟨rfl, fun hp => exec_edge_of_detached hp r, fun hp => ?_, fun hp he => ?_,
    fun hp he => exec_edge_of_full hp he r⟩
  · rw [exec_edge_of_fired hp]
    exact ⟨rfl, rfl⟩
  · have hconf : s.rx.phase ≠ .unconf := by rcases hp with hp | hp <;> simp [hp]
    have hroom : s.rx.edge < s.rx.times.size := by rw [hinv.times_size hconf]; omega
    have hw := write_of_lt hroom r
    exact ⟨_, exec_edge_of_room hp hinv.idle_edge he hw, write_size hw, read_write_same hw,
      fun _ => read_write_other hw⟩

/-! ### CLOSE -/

theorem exec_close_of_unconf {s : State} (hp : s.rx.phase = .unconf) : exec .close s = .next s := by
  simp [exec, execClose, hp]

theorem exec_close_of_constructed {s : State} (hp : s.rx.phase ≠ .unconf) :
    exec .close s = .next (s.setPhase .closed) := by
  cases hq : s.rx.phase with
  | unconf => exact absurd hq hp
  | idle | armed | fired | closed => simp [exec, execClose, hq]

theorem exec_decode_of_not_fired {s : State} (hp : s.rx.phase ≠ .fired) : exec .decode s = .next s := by
  cases hq : s.rx.phase with
  | fired => exact absurd hq hp
  | unconf | idle | armed | closed => simp [exec, execDecode, hq]

theorem exec_docb_of_detached {s : State} (hp : s.rx.phase = .unconf ∨ s.rx.phase = .closed)
    (cmd addr ext thresh : Word) : exec (.docb cmd addr ext thresh) s = .next s := by
  rcases hp with hp | hp <;> simp [exec, execDocb, dispatch, hp]

/-- Settles O23: what `CLOSE` answers, and what the other operations answer in the phase it leaves. -/
theorem closeDetachesTheReceiver : Obligations.CloseDetachesTheReceiver := by
  refine fun s => ⟨rfl, exec_close_of_unconf, fun hp => ⟨s.setPhase .closed, rfl, exec_close_of_constructed hp, ?_⟩⟩
  have hclosed : (s.setPhase .closed).rx.phase = .closed := rfl
  have hconf : (s.setPhase .closed).rx.phase ≠ .unconf := by simp
  exact ⟨exec_close_of_constructed hconf, exec_edge_of_detached (.inr hclosed),
    exec_fire_of_not_waiting (.inr (.inr hclosed)), exec_decode_of_not_fired (by simp),
    exec_docb_of_detached (.inr hclosed), exec_rxinit_of_constructed hconf⟩

end Sys2Proof.Machine
end

section
/-! A block of edges and its decode (rule R103): obligation O21. By induction on the block, edge by edge from its first: the
state after it is `State.afterBlock`, and its timestamp memory `HoldsBlock`. -/

namespace Sys2Proof.Machine

/-! ### The timestamp memory -/

/-- What the block of readings `ts` makes of the memory `m₀`: `m` holds them in order as far as they fit, and is `m₀`
elsewhere. -/
structure HoldsBlock (ts : List Word) (m₀ m : Memory) : Prop where
  size : m.size = m₀.size
  filled : ∀ j r, j < m₀.size → ts[j]? = some r → m.read j = .ok r
  untouched : ∀ j, ts.length ≤ j → m.read j = m₀.read j

theorem holdsBlock_nil (m : Memory) : HoldsBlock [] m m :=
  ⟨rfl, fun _ _ _ h => by simp at h, fun _ _ => rfl⟩

/-- The next reading goes into the slot after the block's. -/
theorem HoldsBlock.write {ts : List Word} {m₀ m m' : Memory} {r : Word} (h : HoldsBlock ts m₀ m)
    (hw : m.write ts.length r = .ok m') : HoldsBlock (ts ++ [r]) m₀ m' where
  size := (write_size hw).trans h.size
  filled j x hj hx := by
    by_cases hlast : j = ts.length
    · subst hlast
      obtain rfl : r = x := by simpa using hx
      exact read_write_same hw
    · have hlt : j < ts.length := by
        have := (List.getElem?_eq_some_iff.1 hx).1
        rw [List.length_append, List.length_singleton] at this
        omega
      rw [List.getElem?_append_left hlt] at hx
      rw [read_write_other hw hlast, h.filled j x hj hx]
  untouched j hj := by
    rw [List.length_append, List.length_singleton] at hj
    rw [read_write_other hw (by omega), h.untouched j (by omega)]

/-- A reading beyond the array leaves no trace. -/
theorem HoldsBlock.drop {ts : List Word} {m₀ m : Memory} (h : HoldsBlock ts m₀ m) (hfull : m₀.size ≤ ts.length)
    (r : Word) : HoldsBlock (ts ++ [r]) m₀ m where
  size := h.size
  filled j x hj hx := by
    rw [List.getElem?_append_left (by omega)] at hx
    exact h.filled j x hj hx
  untouched j hj := by
    rw [List.length_append] at hj
    exact h.untouched j (by omega)

/-! ### The receiver -/

/-- The state after a block of `n` edges from the IDLE state `s`, with the deadline `d` and the timestamp memory `m`. -/
def State.afterBlock (s : State) (n d : Nat) (m : Memory) : State :=
  { s with rx := { s.rx with
      edge := min n (s.rx.cfg.nedges + 1), phase := if n = 0 then .idle else .armed, deadline := d, times := m } }

theorem afterBlock_zero {s : State} (hp : s.rx.phase = .idle) (h0 : s.rx.edge = 0) :
    s.afterBlock 0 s.rx.deadline s.rx.times = s := by
  simp only [State.afterBlock, Nat.zero_min, if_true]
  rw [← hp, ← h0]

theorem afterBlock_phase (s : State) (n d : Nat) (m : Memory) :
    (s.afterBlock n d m).rx.phase = .idle ∨ (s.afterBlock n d m).rx.phase = .armed := by
  by_cases h0 : n = 0 <;> simp [State.afterBlock, h0]

/-- One more edge while there is room. -/
theorem exec_edge_afterBlock_of_room {s : State} {n d : Nat} {m m' : Memory} {r : Word} (hn : n ≤ s.rx.cfg.nedges)
    (hw : m.write n r = .ok m') :
    ∃ d', exec (.edge r) (s.afterBlock n d m) = .next (s.afterBlock (n + 1) d' m') := by
  have hedge : (s.afterBlock n d m).rx.edge = n := Nat.min_eq_left (by omega)
  have hidle : (s.afterBlock n d m).rx.phase = .idle → (s.afterBlock n d m).rx.edge = 0 := by
    by_cases h0 : n = 0 <;> simp [State.afterBlock, h0]
  have hstep := exec_edge_of_room (afterBlock_phase s n d m) hidle (hedge.trans_le hn) (by rw [hedge]; exact hw)
  refine ⟨((s.afterBlock n d m).recorded m').rx.deadline, hstep.trans ?_⟩
  simp [State.recorded, State.afterBlock, hn, Nat.le_succ_of_le hn]

/-- One more edge when the overrun slot is filled. -/
theorem exec_edge_afterBlock_of_full {s : State} {n : Nat} (hn : s.rx.cfg.nedges < n) (d : Nat) (m : Memory)
    (r : Word) : exec (.edge r) (s.afterBlock n d m) = .next (s.afterBlock (n + 1) d m) := by
  have hfull : (s.afterBlock n d m).rx.cfg.nedges < (s.afterBlock n d m).rx.edge := by
    simp [State.afterBlock, hn]
  have hsame : s.afterBlock (n + 1) d m = s.afterBlock n d m := by
    have h0 : n ≠ 0 := by omega
    simp [State.afterBlock, h0, Nat.min_eq_right (Nat.succ_le_of_lt hn), Nat.le_of_lt hn]
  rw [exec_edge_of_full (afterBlock_phase s n d m) hfull, hsame]

theorem execAll_append {is : List Instr} {s t : State} (h : execAll is s = .next t) (js : List Instr) :
    execAll (is ++ js) s = execAll js t := by
  induction is generalizing s with
  | nil => cases h; rfl
  | cons i is ih =>
    cases hi : exec i s with
    | next u =>
      rw [execAll_cons hi] at h
      rw [List.cons_append, execAll_cons hi, ih h]
    | fault f => simp [execAll, hi] at h
    | refused f => simp [execAll, hi] at h

theorem execAll_edges {s : State} (hp : s.rx.phase = .idle) (h0 : s.rx.edge = 0)
    (hsize : s.rx.times.size = s.rx.cfg.nedges + 1) (ts : List Word) :
    ∃ d m, execAll (ts.map Instr.edge) s = .next (s.afterBlock ts.length d m) ∧ HoldsBlock ts s.rx.times m := by
  induction ts using List.reverseRecOn with
  | nil => exact ⟨_, _, congrArg _ (afterBlock_zero hp h0).symm, holdsBlock_nil _⟩
  | append_singleton ts r ih =>
    obtain ⟨d, m, hrun, hm⟩ := ih
    rw [List.map_append, execAll_append hrun, List.length_append]
    by_cases hn : ts.length ≤ s.rx.cfg.nedges
    · have hroom : ts.length < m.size := by rw [hm.size, hsize]; omega
      have hw := write_of_lt hroom r
      obtain ⟨d', hstep⟩ := exec_edge_afterBlock_of_room (s := s) (d := d) hn hw
      exact ⟨d', _, execAll_cons hstep [], hm.write hw⟩
    · have hfull : s.rx.times.size ≤ ts.length := by omega
      exact ⟨d, m, execAll_cons (exec_edge_afterBlock_of_full (Nat.not_le.1 hn) d m r) [], hm.drop hfull r⟩

/-! ### The decode of a block that is too long -/

/-- Rule R122: the count alone decides. -/
theorem runDecode_of_overrun {cfg : Cfg} {n : Nat} (h : cfg.nedges < n) (m : Memory) :
    runDecode cfg m n = .ok (.error .overrun) := by
  simp [runDecode, decodeExemplar, overruns, h, pure, Except.pure]

theorem exec_decode_of_runDecode {s : State} {r : DecodeResult} (hp : s.rx.phase = .fired)
    (hr : runDecode s.rx.cfg s.rx.times s.rx.edge = .ok r) : exec .decode s = .next (finishDecode r s) := by
  simp [exec, execDecode, hp, hr]

theorem finishDecode_rx (r : DecodeResult) (s : State) :
    (finishDecode r s).rx = ((s.setEdge 0).setPhase .idle).rx := by
  simp [finishDecode]

/-- Every result code is negative, so below the threshold 0 of the records. -/
theorem passes_code (c : ResultCode) : passes c.number 0 = false := by cases c <;> decide

/-- A result code goes to the error handler, if one is registered (rules R139 and R140). -/
theorem finishDecode_error_events (c : ResultCode) {s : State} (ht : s.rx.cfg.thresh = 0) :
    (finishDecode (.error c) s).out.events =
      s.out.events ++ (if s.rx.errh = 0 then [] else [.err s.rx.errh c.number]) := by
  have hpass : passes c.number s.rx.cfg.thresh = false := ht ▸ passes_code c
  by_cases hh : s.rx.errh = 0#32 <;> simp [finishDecode, dispatch, DecodeResult.cmd, hpass, hh]

theorem execAll_fire_decode_of_overrun {s : State} (hp : s.rx.phase = .armed) (he : s.rx.cfg.nedges < s.rx.edge) :
    execAll [.fire, .decode] s = .next (finishDecode (.error .overrun) (s.setPhase .fired)) := by
  have hdecode : exec .decode (s.setPhase .fired) = .next (finishDecode (.error .overrun) (s.setPhase .fired)) :=
    exec_decode_of_runDecode rfl (runDecode_of_overrun he _)
  rw [execAll_cons (exec_fire_of_waiting (.inl hp)), execAll_cons hdecode, execAll_nil]

/-- Settles O21: by the induction over the block; one that is longer than `nedges` leaves the counter above `nedges`, which
the decode reports. -/
theorem blockOfEdgesFillsSlotsInOrderAndSaturates : Obligations.BlockOfEdgesFillsSlotsInOrderAndSaturates := by
  intro ts s hinv hp
  have hsize : s.rx.times.size = s.rx.cfg.nedges + 1 := hinv.times_size (by simp [hp])
  have hthresh : s.rx.cfg.thresh = 0 := by rw [hinv.rx_cfg, proto_thresh]
  obtain ⟨d, m, hrun, hm⟩ := execAll_edges hp (hinv.idle_edge hp) hsize ts
  refine ⟨_, hrun, rfl, fun j r hj => hm.filled j r (by omega), hm.untouched,
    by simp [State.afterBlock, List.length_eq_zero_iff], rfl, rfl, rfl, rfl, rfl, rfl, rfl, rfl, fun hlong => ?_⟩
  have harmed : (s.afterBlock ts.length d m).rx.phase = .armed := if_neg (by omega)
  have hover : s.rx.cfg.nedges < (s.afterBlock ts.length d m).rx.edge := lt_min hlong (Nat.lt_succ_self _)
  exact ⟨_, execAll_fire_decode_of_overrun harmed hover, by simp [finishDecode_rx], by simp [finishDecode_rx],
    finishDecode_error_events .overrun hthresh⟩

end Sys2Proof.Machine
end

section
/-! Dispatch of a result and the decoder's operations (rules R120, R135 to R140): obligations O41, O44 and O27. What a
dispatch emits is said once, by `dispatchEvents`; `DOCB` and `DECODE` both answer it. -/

namespace Sys2Proof.Machine

/-! ### Dispatch -/

/-- What a dispatch emits while a receiver is attached: the callback's event, the handler's, or none. -/
def dispatchEvents (x : Rx) (cmd addr ext thresh : Word) : List Event :=
  if cmd.toInt ≥ thresh.toInt then [.cb x.cb cmd addr ext x.args]
  else if x.errh ≠ 0 then [.err x.errh cmd]
  else []

theorem dispatchEvents_of_ge {cmd thresh : Word} (h : cmd.toInt ≥ thresh.toInt) (x : Rx) (addr ext : Word) :
    dispatchEvents x cmd addr ext thresh = [.cb x.cb cmd addr ext x.args] := if_pos h

theorem dispatchEvents_of_lt {cmd thresh : Word} (h : cmd.toInt < thresh.toInt) (x : Rx) (addr ext : Word) :
    dispatchEvents x cmd addr ext thresh = if x.errh = 0 then [] else [.err x.errh cmd] :=
  (if_neg (Int.not_le.2 h)).trans (ite_not _ _ _)

/-- With a receiver attached a dispatch appends its events to the output and changes nothing else. -/
theorem dispatch_of_attached {s : State} (hp : s.rx.phase = .idle ∨ s.rx.phase = .armed ∨ s.rx.phase = .fired)
    (cmd addr ext thresh : Word) :
    dispatch cmd addr ext thresh s =
      { s with out := { s.out with events := s.out.events ++ dispatchEvents s.rx cmd addr ext thresh } } := by
  by_cases hq : cmd.toInt ≥ thresh.toInt
  · have hpass : passes cmd thresh = true := decide_eq_true hq
    rw [dispatchEvents_of_ge hq]
    rcases hp with hp | hp | hp <;> simp [dispatch, hp, hpass, State.emit]
  · have hpass : passes cmd thresh = false := decide_eq_false hq
    rw [dispatchEvents_of_lt (Int.not_le.1 hq)]
    by_cases he : s.rx.errh = 0#32 <;> rcases hp with hp | hp | hp <;> simp [dispatch, hp, hpass, he, State.emit]

/-! ### DOCB and ERRFN -/

theorem exec_docb_of_attached {s : State} (hp : s.rx.phase = .idle ∨ s.rx.phase = .armed ∨ s.rx.phase = .fired)
    (cmd addr ext thresh : Word) :
    exec (.docb cmd addr ext thresh) s = .next
      { s with out := { s.out with events := s.out.events ++ dispatchEvents s.rx cmd addr ext thresh } } :=
  congrArg _ (dispatch_of_attached hp cmd addr ext thresh)

/-- Settles O41: detached `DOCB` is silent, attached it emits what the threshold and the handler select. -/
theorem docbDispatchesByThreshold : Obligations.DocbDispatchesByThreshold := by
  refine fun cmd addr ext thresh s => ⟨rfl, rfl, fun hp => exec_docb_of_detached hp cmd addr ext thresh, fun hp => ?_⟩
  rw [exec_docb_of_attached hp]
  refine ⟨fun hge => ?_, fun hlt he => ?_, fun hlt he => ?_⟩
  · rw [dispatchEvents_of_ge hge]
  · rw [dispatchEvents_of_lt hlt, if_neg he]
  · rw [dispatchEvents_of_lt hlt, if_pos he, List.append_nil]

theorem exec_errfn (h : Word) (s : State) : exec (.errfn h) s = .next (s.setErrh h) := rfl

/-- Settles O44: `ERRFN` writes the token, and the `DOCB` after it reads the token written. -/
theorem errfnReplacesTheHandlerAtOnce : Obligations.ErrfnReplacesTheHandlerAtOnce := by
  refine fun h s => ⟨rfl, rfl, fun cmd addr ext thresh hp hlt => ?_⟩
  have hdocb := exec_docb_of_attached (s := s.setErrh h) hp cmd addr ext thresh
  refine ⟨_, (execAll_cons (exec_errfn h s) _).trans (execAll_cons hdocb []), ?_⟩
  rw [dispatchEvents_of_lt hlt, setErrh_out, setErrh_rx_errh]

/-! ### DECODE -/

/-- Every slot below the counter of a fired receiver can be read (rule R37 d). -/
theorem Inv.fired_reads {s : State} (hinv : Inv s) (hp : s.rx.phase = .fired) :
    ∀ i < s.rx.edge, ∃ v, s.rx.times.read i = .ok v := by
  intro i hi
  have hconf : s.rx.phase ≠ .unconf := by simp [hp]
  have hroom : i < s.rx.times.size := by
    rw [hinv.times_size hconf]
    exact hi.trans_le (hinv.edge_bound hconf)
  exact read_of_holds hroom (hinv.slots_written (.inr hp) i hi)

theorem runDecode_proto_ok (p : Params) (b : Variant) {m : Memory} {n : Nat}
    (h : ∀ i < n, ∃ v, m.read i = .ok v) : ∃ r, runDecode (proto p b) m n = .ok r := by
  rw [runDecode_proto]
  exact decodeExemplar_ok (by simp) h

theorem Inv.runDecode_ok {s : State} (hinv : Inv s) (hp : s.rx.phase = .fired) :
    ∃ r, runDecode s.rx.cfg s.rx.times s.rx.edge = .ok r := by
  rw [hinv.rx_cfg]
  exact runDecode_proto_ok _ _ (hinv.fired_reads hp)

/-- The dispatch of `DECODE` takes place in IDLE, so it is never detached. -/
theorem finishDecode_eq (r : DecodeResult) (s : State) :
    finishDecode r s = { s with
      rx := { s.rx with edge := 0, phase := .idle }
      out := { s.out with
        events := s.out.events ++ dispatchEvents s.rx r.cmd r.addr r.ext s.rx.cfg.thresh } } :=
  dispatch_of_attached (s := (s.setEdge 0).setPhase .idle) (.inl rfl) r.cmd r.addr r.ext s.rx.cfg.thresh

/-- Settles O27: the invariant makes the block readable, so the routine answers; the rest is `finishDecode`. -/
theorem decodeClassifiesResetsAndDispatches : Obligations.DecodeClassifiesResetsAndDispatches := by
  refine fun s => ⟨rfl, rfl, exec_decode_of_not_fired, fun hinv hp => ?_⟩
  obtain ⟨r, hr⟩ := hinv.runDecode_ok hp
  exact ⟨r, hr, (exec_decode_of_runDecode hp hr).trans (congrArg _ (finishDecode_eq r s))⟩

end Sys2Proof.Machine
end

section
/-! Field extraction and range validation (rule R127): obligation O34. The extracted fields are numbers, one equation for each
variant. From the equations, which values pass the range check and which codes it reports. -/

namespace Sys2Proof.Machine

/-! ### Fields as numbers -/

theorem and_ones_eq_ofNat (x : Word) {n : Nat} (hn : n ≤ 32) :
    x &&& BitVec.ofNat 32 (2 ^ n - 1) = BitVec.ofNat 32 (x.toNat % 2 ^ n) := by
  rw [← toNat_and_ones x hn, BitVec.ofNat_toNat, BitVec.setWidth_eq]

theorem toNat_ushiftRight_eq_div (x : Word) (k : Nat) : (x >>> k).toNat = x.toNat / 2 ^ k := by
  rw [BitVec.toNat_ushiftRight, Nat.shiftRight_eq_div_pow]

theorem ushiftRight_eq_ofNat (x : Word) (k : Nat) : x >>> k = BitVec.ofNat 32 (x.toNat / 2 ^ k) := by
  rw [← toNat_ushiftRight_eq_div, BitVec.ofNat_toNat, BitVec.setWidth_eq]

/-- The command is the low seven bits. -/
theorem command_eq_ofNat (v : Word) : v &&& (0x7F : Word) = BitVec.ofNat 32 (v.toNat % 2 ^ 7) :=
  and_ones_eq_ofNat v (n := 7) (by decide)

/-- The address of the 20 bit variant is the five bits above the command. -/
theorem interior_eq_ofNat (v : Word) :
    (v >>> 7) &&& (0x1F : Word) = BitVec.ofNat 32 (v.toNat / 2 ^ 7 % 2 ^ 5) := by
  rw [← toNat_ushiftRight_eq_div]
  exact and_ones_eq_ofNat (v >>> 7) (n := 5) (by decide)

/-! ### Each variant -/

theorem unpack_b12_eq (v : Word) :
    unpack .b12 v = if v.toNat / 2 ^ 7 > 0x1F then .error .badAddr
      else .valid (BitVec.ofNat 32 (v.toNat % 2 ^ 7)) (BitVec.ofNat 32 (v.toNat / 2 ^ 7)) 0 := by
  rw [unpack, toNat_ushiftRight_eq_div, command_eq_ofNat, ushiftRight_eq_ofNat]

theorem unpack_b15_eq (v : Word) :
    unpack .b15 v = if v.toNat / 2 ^ 7 > 0xFF then .error .badAddr
      else .valid (BitVec.ofNat 32 (v.toNat % 2 ^ 7)) (BitVec.ofNat 32 (v.toNat / 2 ^ 7)) 0 := by
  rw [unpack, toNat_ushiftRight_eq_div, command_eq_ofNat, ushiftRight_eq_ofNat]

theorem unpack_b20_eq (v : Word) :
    unpack .b20 v = if v.toNat / 2 ^ 12 > 0xFF then .error .badData
      else .valid (BitVec.ofNat 32 (v.toNat % 2 ^ 7)) (BitVec.ofNat 32 (v.toNat / 2 ^ 7 % 2 ^ 5))
        (BitVec.ofNat 32 (v.toNat / 2 ^ 12)) := by
  rw [unpack, toNat_ushiftRight_eq_div, command_eq_ofNat, interior_eq_ofNat, ushiftRight_eq_ofNat v 12]

/-- Settles O34: one equation for each variant, true of every word. -/
theorem unpackExtractsAndChecksTheTopField : Obligations.UnpackExtractsAndChecksTheTopField :=
  fun v _ => ⟨unpack_b12_eq v, unpack_b15_eq v, unpack_b20_eq v⟩

/-- A value that fits the variant's data bits passes the range check. -/
theorem unpack_of_lt {b : Variant} {v : Word} (hv : v.toNat < 2 ^ b.bits) : ∃ c a e, unpack b v = .valid c a e := by
  cases b with
  | b12 =>
    have htop : v.toNat / 2 ^ 7 < 2 ^ 5 := Nat.div_lt_of_lt_mul hv
    exact ⟨_, _, _, (unpack_b12_eq v).trans (if_neg (by omega))⟩
  | b15 =>
    have htop : v.toNat / 2 ^ 7 < 2 ^ 8 := Nat.div_lt_of_lt_mul hv
    exact ⟨_, _, _, (unpack_b15_eq v).trans (if_neg (by omega))⟩
  | b20 =>
    have htop : v.toNat / 2 ^ 12 < 2 ^ 8 := Nat.div_lt_of_lt_mul hv
    exact ⟨_, _, _, (unpack_b20_eq v).trans (if_neg (by omega))⟩

/-- The range check is the one source of a code. -/
theorem unpack_error {b : Variant} {v : Word} {k : ResultCode} (h : unpack b v = .error k) :
    k = .badAddr ∨ k = .badData := by
  cases b with
  | b12 | b15 =>
    rw [unpack] at h
    split at h <;> cases h
    exact .inl rfl
  | b20 =>
    rw [unpack] at h
    split at h <;> cases h
    exact .inr rfl

end Sys2Proof.Machine
end

section
/-! The answers of the decode routine over any memory (rules R121, R122, R128 and R131): obligations O29, O31 and O28. One
lemma says where an answer comes from, `runDecode_cases`. -/

namespace Sys2Proof.Machine

/-! ### The count -/

/-- Rule R131: a count that is too small is noticed before any slot is read. -/
theorem runDecode_of_short {cfg : Cfg} {n : Nat} (h : n < cfg.nedges) (m : Memory) :
    runDecode cfg m n = .ok (.error .badBlock) := by
  simp [runDecode, decodeExemplar, overruns, h.ne, Nat.not_lt.2 h.le, pure, Except.pure]

/-- Settles O29: the count alone decides. -/
theorem shortBlocksAreBadAndLongBlocksOverrun : Obligations.ShortBlocksAreBadAndLongBlocksOverrun :=
  fun _ _ m _ => ⟨fun h => runDecode_of_short h m, fun h => runDecode_of_overrun h m⟩

/-! ### Where an answer comes from -/

/-- A computation that may fault answers when both its parts do. -/
theorem bind_eq_ok {α β : Type} {x : Except Fault α} {f : α → Except Fault β} {y : β} :
    x >>= f = .ok y ↔ ∃ a, x = .ok a ∧ f a = .ok y := by
  cases x <;> simp [bind, Except.bind]

/-- An answer at the expected count is that of the lead-in or that of `unpack`. -/
theorem runDecode_nedges_cases {cfg : Cfg} {m : Memory} {r : DecodeResult} (h : runDecode cfg m cfg.nedges = .ok r) :
    r = .error .badStart ∨ ∃ v, collectBits m cfg.bits.bits = .ok v ∧ r = unpack cfg.bits v := by
  simp only [runDecode, decodeExemplar, overruns, gt_iff_lt, lt_irrefl, decide_false, Bool.false_eq_true, if_false,
    ne_eq, not_true_eq_false] at h
  obtain ⟨leadMark, -, h⟩ := bind_eq_ok.1 h
  split at h
  · cases h; exact .inl rfl
  obtain ⟨leadSpace, -, h⟩ := bind_eq_ok.1 h
  split at h
  · cases h; exact .inl rfl
  obtain ⟨v, hv, h⟩ := bind_eq_ok.1 h
  cases h
  exact .inr ⟨v, hv, rfl⟩

/-- Where an answer of the routine comes from: the count, the lead-in or `unpack`. -/
theorem runDecode_cases {cfg : Cfg} {m : Memory} {n : Nat} {r : DecodeResult} (h : runDecode cfg m n = .ok r) :
    (cfg.nedges < n ∧ r = .error .overrun) ∨ (n < cfg.nedges ∧ r = .error .badBlock) ∨
      (n = cfg.nedges ∧ (r = .error .badStart ∨ ∃ v, collectBits m cfg.bits.bits = .ok v ∧ r = unpack cfg.bits v)) := by
  rcases lt_trichotomy n cfg.nedges with hn | rfl | hn
  · rw [runDecode_of_short hn] at h
    cases h
    exact .inr (.inl ⟨hn, rfl⟩)
  · exact .inr (.inr ⟨rfl, runDecode_nedges_cases h⟩)
  · rw [runDecode_of_overrun hn] at h
    cases h
    exact .inl ⟨hn, rfl⟩

/-- Settles O31: neither the count, nor the lead-in, nor `unpack` reports a repeat. -/
theorem exemplarNeverReportsRepeats : Obligations.ExemplarNeverReportsRepeats := by
  intro p b m n k h
  rcases runDecode_cases h with ⟨-, hk⟩ | ⟨-, hk⟩ | ⟨-, hk | ⟨v, -, hk⟩⟩
  · cases hk; decide
  · cases hk; decide
  · cases hk; decide
  · rcases unpack_error hk.symm with rfl | rfl <;> decide

/-! ### The form of an answer -/

/-- What rule R121 b allows as an answer: a triple within the record's maxima, or a negative code beside zeros. -/
def DecodeResult.Allowed (cfg : Cfg) (r : DecodeResult) : Prop :=
  (∃ c a e, r = .valid c a e ∧ 0 ≤ c.toInt ∧ 0 ≤ a.toInt ∧ a.toInt ≤ cfg.addrMax ∧ 0 ≤ e.toInt ∧ e.toInt ≤ cfg.extMax) ∨
    (∃ k, r = .error k ∧ r.cmd = k.number ∧ k.number.toInt < 0 ∧ r.addr = 0 ∧ r.ext = 0)

theorem number_neg (k : ResultCode) : k.number.toInt < 0 := by cases k <;> decide

theorem allowed_error (cfg : Cfg) (k : ResultCode) : DecodeResult.Allowed cfg (.error k) :=
  .inr ⟨k, rfl, rfl, number_neg k, rfl, rfl⟩

theorem toInt_ofNat_of_lt {x : Nat} (h : x < 2 ^ 31) : (BitVec.ofNat 32 x).toInt = x := by
  rw [BitVec.toInt_ofNat']
  exact Int.bmod_eq_of_le (by omega) (by omega)

theorem proto_maxima_le (p : Params) (b : Variant) : (proto p b).addrMax ≤ 0xFF ∧ (proto p b).extMax ≤ 0xFF := by
  cases b <;> simp [proto]

/-- Fields given as numbers within the maxima. -/
theorem allowed_valid {p : Params} {b : Variant} {c a e : Nat} (hc : c < 2 ^ 7) (ha : a ≤ (proto p b).addrMax)
    (he : e ≤ (proto p b).extMax) :
    DecodeResult.Allowed (proto p b) (.valid (BitVec.ofNat 32 c) (BitVec.ofNat 32 a) (BitVec.ofNat 32 e)) := by
  obtain ⟨hamax, hemax⟩ := proto_maxima_le p b
  refine .inl ⟨_, _, _, rfl, ?_⟩
  rw [toInt_ofNat_of_lt (x := c) (by omega), toInt_ofNat_of_lt (x := a) (by omega),
    toInt_ofNat_of_lt (x := e) (by omega)]
  omega

/-- A range check that guards an allowed answer. -/
theorem allowed_check {cfg : Cfg} {bad : Prop} [Decidable bad] {k : ResultCode} {r : DecodeResult}
    (h : ¬ bad → DecodeResult.Allowed cfg r) : DecodeResult.Allowed cfg (if bad then .error k else r) := by
  by_cases hb : bad
  · rw [if_pos hb]; exact allowed_error cfg k
  · rw [if_neg hb]; exact h hb

theorem allowed_unpack (p : Params) (b : Variant) (v : Word) : DecodeResult.Allowed (proto p b) (unpack b v) := by
  have hc : v.toNat % 2 ^ 7 < 2 ^ 7 := Nat.mod_lt _ (by decide)
  cases b with
  | b12 =>
    rw [unpack_b12_eq]
    exact allowed_check fun ha => allowed_valid (e := 0) hc (Nat.not_lt.1 ha) (Nat.zero_le _)
  | b15 =>
    rw [unpack_b15_eq]
    exact allowed_check fun ha => allowed_valid (e := 0) hc (Nat.not_lt.1 ha) (Nat.zero_le _)
  | b20 =>
    have ha : v.toNat / 2 ^ 7 % 2 ^ 5 < 2 ^ 5 := Nat.mod_lt _ (by decide)
    rw [unpack_b20_eq]
    exact allowed_check fun he => allowed_valid hc (Nat.le_of_lt_succ ha) (Nat.not_lt.1 he)

theorem allowed_of_runDecode {p : Params} {b : Variant} {m : Memory} {n : Nat} {r : DecodeResult}
    (h : runDecode (proto p b) m n = .ok r) : DecodeResult.Allowed (proto p b) r := by
  rcases runDecode_cases h with ⟨-, rfl⟩ | ⟨-, rfl⟩ | ⟨-, rfl | ⟨v, -, rfl⟩⟩
  · exact allowed_error _ _
  · exact allowed_error _ _
  · exact allowed_error _ _
  · rw [proto_bits]
    exact allowed_unpack p b v

/-! ### What the routine reads -/

theorem slotDiff_congr {m m' : Memory} {i j : Nat} (hi : m'.read i = m.read i) (hj : m'.read j = m.read j) :
    slotDiff m' i j = slotDiff m i j := by
  rw [slotDiff, slotDiff, hi, hj]

/-- The routine reaches the memory through differences of slots below the count only. -/
theorem runDecode_congr (p : Params) (b : Variant) {m m' : Memory} {n : Nat}
    (h : ∀ i < n, ∀ j < n, slotDiff m' i j = slotDiff m i j) :
    runDecode (proto p b) m' n = runDecode (proto p b) m n := by
  rw [runDecode_proto, runDecode_proto]
  exact decodeExemplar_congr (by simp) h

/-- Settles O28: the form of an answer by its cases; the rest because the routine reads differences only, and only slots
below the count. -/
theorem decodeRoutineKeepsItsContract : Obligations.DecodeRoutineKeepsItsContract := by
  refine fun p b m n => ⟨fun m' hsame => ?_, runDecode_proto_ok p b, fun r => allowed_of_runDecode,
    fun hlong => runDecode_of_overrun hlong m, fun m' r r' hr hr' hdiff => ?_⟩
  · exact runDecode_congr p b fun i hi j hj => slotDiff_congr (hsame i hi) (hsame j hj)
  · refine runDecode_congr p b fun i hi j hj => ?_
    rw [slotDiff_of_reads (hr i hi) (hr j hj), slotDiff_of_reads (hr' i hi) (hr' j hj), hdiff i hi j hj]

end Sys2Proof.Machine
end

section
/-! The decode routine over a readable block of the expected count (rules R126 and R134): obligations O30 and O33. -/

namespace Sys2Proof.Machine

/-- The routine's answer, once the lead-in's two differences and the data bits are known. -/
theorem runDecode_of_slotDiffs {cfg : Cfg} {m : Memory} {leadMark leadSpace : Int} {v : Word}
    (hmark : slotDiff m 1 0 = .ok leadMark) (hspace : slotDiff m 2 1 = .ok leadSpace)
    (hv : collectBits m cfg.bits.bits = .ok v) :
    runDecode cfg m cfg.nedges =
      .ok (if leadMarkOk leadMark && leadSpaceOk leadSpace then unpack cfg.bits v else .error .badStart) := by
  cases hm : leadMarkOk leadMark <;> cases hs : leadSpaceOk leadSpace <;>
    simp [runDecode, decodeExemplar, overruns, hmark, hspace, hv, hm, hs, bind, Except.bind, pure, Except.pure]

/-- The lead-in of the readings `r`, its mark and its space, lies inside the windows of rule R126. -/
def LeadInOk (r : Nat → Word) : Prop :=
  (1800 < tdiff (r 1) (r 0) ∧ tdiff (r 1) (r 0) < 3000) ∧ 350 < tdiff (r 2) (r 1) ∧ tdiff (r 2) (r 1) < 1000

theorem leadInOk_iff {r : Nat → Word} :
    LeadInOk r ↔ (leadMarkOk (tdiff (r 1) (r 0)) && leadSpaceOk (tdiff (r 2) (r 1))) = true := by
  rw [Bool.and_eq_true, leadMarkOk, leadSpaceOk, decide_eq_true_iff, decide_eq_true_iff]
  exact Iff.rfl

/-- The value `v` holds the `n` data bits of the readings `r`. -/
def HoldsDataBits (r : Nat → Word) (n : Nat) (v : Word) : Prop :=
  ∀ k, v.getLsbD k = (decide (k < n) && decide (tdiff (r (3 + 2 * k)) (r (2 + 2 * k)) > 900))

/-- Only the sides of 900 on which the data marks fall enter the value. -/
theorem HoldsDataBits.unique {r r' : Nat → Word} {n : Nat} {v v' : Word} (h : HoldsDataBits r n v)
    (h' : HoldsDataBits r' n v')
    (hside : ∀ k < n, tdiff (r (3 + 2 * k)) (r (2 + 2 * k)) > 900 ↔ tdiff (r' (3 + 2 * k)) (r' (2 + 2 * k)) > 900) :
    v = v' := by
  refine BitVec.eq_of_getLsbD_eq fun k _ => ?_
  rw [h k, h' k]
  by_cases hk : k < n
  · rw [decide_eq_decide.2 (hside k hk)]
  · rw [decide_eq_false hk, Bool.false_and, Bool.false_and]

/-- Rule R126 on a readable block: its data bits make a value of the variant's width, which goes to `unpack` if the lead-in
is good. -/
theorem runDecode_of_reads (p : Params) {b : Variant} {m : Memory} {r : Nat → Word}
    (hr : ∀ i < 2 + 2 * b.bits, m.read i = .ok (r i)) :
    ∃ v, v.toNat < 2 ^ b.bits ∧ HoldsDataBits r b.bits v ∧
      (LeadInOk r → runDecode (proto p b) m (2 + 2 * b.bits) = .ok (unpack b v)) ∧
      (¬ LeadInOk r → runDecode (proto p b) m (2 + 2 * b.bits) = .ok (.error .badStart)) := by
  have hlow := bits_ge b
  have hhigh := bits_le b
  obtain ⟨v, hv, hbits⟩ := collectBits_bits hr (by omega)
  have hdecode := runDecode_of_slotDiffs (cfg := proto p b) (slotDiff_of_reads (hr 1 (by omega)) (hr 0 (by omega)))
    (slotDiff_of_reads (hr 2 (by omega)) (hr 1 (by omega))) (by rw [proto_bits]; exact hv)
  rw [proto_nedges, proto_bits] at hdecode
  refine ⟨v, collectBits_lt (by omega) hv, hbits, fun hlead => ?_, fun hlead => ?_⟩
  · rw [hdecode, if_pos (leadInOk_iff.1 hlead)]
  · rw [hdecode, if_neg (mt leadInOk_iff.2 hlead)]

/-- Settles O30: the count outside, the block inside. -/
theorem exemplarReadsLeadInThenBits : Obligations.ExemplarReadsLeadInThenBits := by
  intro p b m n r hr
  refine ⟨fun h => runDecode_of_overrun (by rwa [proto_nedges]) m,
    fun h => runDecode_of_short (by rwa [proto_nedges]) m, ?_⟩
  rintro rfl
  obtain ⟨v, -, hbits, hgood, hbad⟩ := runDecode_of_reads p hr
  exact ⟨fun hmark => hbad fun hlead => hmark hlead.1, fun _ _ hspace => hbad fun hlead => hspace hlead.2,
    fun hm hm' hs hs' => ⟨v, hbits, hgood ⟨⟨hm, hm'⟩, hs, hs'⟩⟩⟩

/-- Settles O33: the two blocks make the same value, and a value of the variant's width passes the range check. -/
theorem onlyLeadInAndMarksDecide : Obligations.OnlyLeadInAndMarksDecide := by
  intro p b m m' r r' hr hr' hm hm' hs hs' gm gm' gs gs' hside
  obtain ⟨v, hlt, hbits, hgood, -⟩ := runDecode_of_reads p hr
  obtain ⟨v', -, hbits', hgood', -⟩ := runDecode_of_reads p hr'
  obtain rfl : v = v' := hbits.unique hbits' hside
  obtain ⟨c, a, e, hvalid⟩ := unpack_of_lt hlt
  exact ⟨c, a, e, hvalid ▸ hgood ⟨⟨hm, hm'⟩, hs, hs'⟩, hvalid ▸ hgood' ⟨⟨gm, gm'⟩, gs, gs'⟩⟩

end Sys2Proof.Machine
end

section
/-! Constructing the transmitter, appending a pair and handing the train over (rules R151, R152, R161 and R176): obligations O45,
O46 and O49. One equation for each operation and each way it goes. -/

namespace Sys2Proof.Machine

/-! ### TXINIT -/

theorem exec_txinit_of_constructed {s : State} (hc : s.tx.conf = true) (bits : Word) :
    exec (.txinit bits) s = .next (s.returnError (.txinit bits) .reinit) := by
  simp [exec, execTxinit, hc]

theorem exec_txinit_of_bad_selector {s : State} {bits : Word} (hc : s.tx.conf = false)
    (hv : selectVariant bits = none) :
    exec (.txinit bits) s = .next (s.returnError (.txinit bits) .badVariant) := by
  simp [exec, execTxinit, hc, hv]

theorem exec_txinit_of_variant {s : State} (hc : s.tx.conf = false) (b : Variant) :
    exec (.txinit (BitVec.ofNat 32 b.bits)) s = .next (s.constructTx (proto s.env.params b)) := by
  simp [exec, execTxinit, hc]

/-- Settles O45: the three answers of `TXINIT`. -/
theorem txinitConstructsTheTransmitterOrRefuses : Obligations.TxinitConstructsTheTransmitterOrRefuses := by
  intro bits s
  refine ⟨rfl, fun hc => exec_txinit_of_constructed hc bits,
    fun hc h12 h15 h20 => exec_txinit_of_bad_selector hc (selectVariant_of_ne h12 h15 h20), ?_⟩
  rintro b hc rfl
  exact exec_txinit_of_variant hc b

/-! ### APPEND -/

/-- The pulse memory is full only at a finite capacity (rule R176). -/
theorem pulsesFull_eq_true {p : Params} {ps : List Pair} :
    pulsesFull p ps = true ↔ ∃ cap, p.ptCap = some cap ∧ cap ≤ ps.length := by
  cases hcap : p.ptCap <;> simp [pulsesFull, hcap]

theorem pulsesFull_eq_false {p : Params} {ps : List Pair} :
    pulsesFull p ps = false ↔ ∀ cap, p.ptCap = some cap → ps.length < cap := by
  cases hcap : p.ptCap <;> simp [pulsesFull, hcap]

theorem exec_append_of_not_constructed {s : State} (hc : s.tx.conf = false) (mark space : Word) :
    exec (.append mark space) s = .next (s.returnError (.append mark space) .notConstructed) := by
  simp [exec, execAppend, hc]

theorem exec_append_of_room {s : State} (hc : s.tx.conf = true)
    (hroom : pulsesFull s.env.params s.tx.pulses = false) (mark space : Word) :
    exec (.append mark space) s = .next (s.setPulses (s.tx.pulses ++ [⟨mark, space⟩])) := by
  simp [exec, execAppend, appendPair, hc, hroom]

theorem exec_append_of_full {s : State} (hc : s.tx.conf = true)
    (hfull : pulsesFull s.env.params s.tx.pulses = true) (mark space : Word) :
    exec (.append mark space) s = .fault .txOverflow := by
  simp [exec, execAppend, appendPair, hc, hfull]

/-- Settles O46: the three answers of `APPEND`; below the capacity there is room, and at the capacity there is none. -/
theorem appendAddsOnePairAtTheEnd : Obligations.AppendAddsOnePairAtTheEnd := by
  intro mark space s
  refine ⟨rfl, fun hc => exec_append_of_not_constructed hc mark space,
    fun hc hbelow => exec_append_of_room hc (pulsesFull_eq_false.2 hbelow) mark space, fun hc hcap => ?_⟩
  have hfull : pulsesFull s.env.params s.tx.pulses = true := pulsesFull_eq_true.2 ⟨_, hcap, le_rfl⟩
  rw [exec_append_of_full hc hfull]
  exact ⟨rfl, rfl⟩

/-! ### PLAY -/

theorem exec_play_of_not_constructed {s : State} (hc : s.tx.conf = false) :
    exec .play s = .next (s.returnError .play .notConstructed) := by
  simp [exec, execPlay, hc]

theorem exec_play_of_constructed {s : State} (hc : s.tx.conf = true) :
    exec .play s = .next (s.emit (.txout s.tx.pulses s.tx.freq s.tx.gap)) := by
  simp [exec, execPlay, hc]

/-- Settles O49: the two answers of `PLAY`; the one event is all that the second adds. -/
theorem playHandsOverTheTrain : Obligations.PlayHandsOverTheTrain :=
  fun _ => ⟨rfl, exec_play_of_not_constructed, exec_play_of_constructed⟩

end Sys2Proof.Machine
end

section
/-! Who returns a `ConfigError`, and under which reason (rules R94 and R172): obligation O56. -/

namespace Sys2Proof.Machine

/-- The reasons under which each operation can be refused (rule R94): `CanRefuse i r` says that `i` has the reason `r`. -/
inductive CanRefuse : Instr → ConfigReason → Prop
  | rxinitAgain (bits cb args : Word) : CanRefuse (.rxinit bits cb args) .reinit
  | rxinitSelector {bits : Word} (hv : selectVariant bits = none) (cb args : Word) :
      CanRefuse (.rxinit bits cb args) .badVariant
  | txinitAgain (bits : Word) : CanRefuse (.txinit bits) .reinit
  | txinitSelector {bits : Word} (hv : selectVariant bits = none) : CanRefuse (.txinit bits) .badVariant
  | append (mark space : Word) : CanRefuse (.append mark space) .notConstructed
  | tx (addr data ext : Word) : CanRefuse (.tx addr data ext) .notConstructed
  | play : CanRefuse .play .notConstructed

theorem ne_of_selectVariant_eq_none {bits : Word} (h : selectVariant bits = none) :
    bits ≠ 12 ∧ bits ≠ 15 ∧ bits ≠ 20 := by
  refine ⟨?_, ?_, ?_⟩ <;> rintro rfl <;> cases h

/-! ### The operations that return no error -/

theorem recordEdge_errors {r : Word} {s t : State} (h : recordEdge r s = .ok t) : t.out.errors = s.out.errors := by
  obtain ⟨m, -, ⟨-, rfl⟩ | ⟨-, rfl⟩⟩ := recordEdge_cases h <;> simp

theorem exec_edge_errors {r : Word} {s t : State} (h : exec (.edge r) s = .next t) : t.out.errors = s.out.errors := by
  rcases execEdge_cases r s with ⟨-, he⟩ | ⟨-, he⟩ | ⟨-, -, he⟩ | ⟨-, -, ⟨s', hrec, he⟩ | ⟨f, -, he⟩⟩ <;>
    cases h.symm.trans he
  · rfl
  · rfl
  · exact recordEdge_errors hrec

theorem exec_fire_errors {s t : State} (h : exec .fire s = .next t) : t.out.errors = s.out.errors := by
  rcases execFire_cases s with ⟨-, he⟩ | ⟨-, he⟩ <;> cases h.symm.trans he <;> rfl

theorem exec_close_errors {s t : State} (h : exec .close s = .next t) : t.out.errors = s.out.errors := by
  rcases execClose_cases s with ⟨-, he⟩ | ⟨-, he⟩ <;> cases h.symm.trans he <;> rfl

theorem exec_decode_errors {s t : State} (h : exec .decode s = .next t) : t.out.errors = s.out.errors := by
  rcases execDecode_cases s with ⟨-, he⟩ | ⟨-, ⟨r, -, he⟩ | ⟨f, -, he⟩⟩ <;> cases h.symm.trans he
  · rfl
  · simp [finishDecode]

/-! ### The operations that may -/

/-- What an operation does to the log of errors: nothing, or it is refused, and then the returned error is all that the
refusal leaves behind (rule R172). -/
def KeepsErrorsOrRefuses (i : Instr) (s t : State) : Prop :=
  t.out.errors = s.out.errors ∨ ∃ r, CanRefuse i r ∧ t = s.returnError i r

theorem CanRefuse.refuses {i : Instr} {r : ConfigReason} (h : CanRefuse i r) (s : State) :
    KeepsErrorsOrRefuses i s (s.returnError i r) :=
  .inr ⟨r, h, rfl⟩

theorem exec_rxinit_errors {bits cb args : Word} {s t : State} (h : exec (.rxinit bits cb args) s = .next t) :
    KeepsErrorsOrRefuses (.rxinit bits cb args) s t := by
  rcases execRxinit_cases bits cb args s with ⟨-, he⟩ | ⟨-, hv, he⟩ | ⟨b, -, -, he⟩ <;> cases h.symm.trans he
  · exact (CanRefuse.rxinitAgain bits cb args).refuses s
  · exact (CanRefuse.rxinitSelector hv cb args).refuses s
  · exact .inl rfl

theorem exec_txinit_errors {bits : Word} {s t : State} (h : exec (.txinit bits) s = .next t) :
    KeepsErrorsOrRefuses (.txinit bits) s t := by
  rcases execTxinit_cases bits s with ⟨-, he⟩ | ⟨-, hv, he⟩ | ⟨b, -, -, he⟩ <;> cases h.symm.trans he
  · exact (CanRefuse.txinitAgain bits).refuses s
  · exact (CanRefuse.txinitSelector hv).refuses s
  · exact .inl rfl

theorem exec_append_errors {mark space : Word} {s t : State} (h : exec (.append mark space) s = .next t) :
    KeepsErrorsOrRefuses (.append mark space) s t := by
  rcases execAppend_cases mark space s with ⟨-, he⟩ | ⟨-, -, he⟩ | ⟨-, -, he⟩ <;> cases h.symm.trans he
  · exact (CanRefuse.append mark space).refuses s
  · exact .inl rfl

theorem exec_tx_errors {addr data ext : Word} {s t : State} (h : exec (.tx addr data ext) s = .next t) :
    KeepsErrorsOrRefuses (.tx addr data ext) s t := by
  rcases execTx_cases addr data ext s with ⟨-, he⟩ | ⟨-, he | ⟨he, -⟩⟩ <;> cases h.symm.trans he
  · exact (CanRefuse.tx addr data ext).refuses s
  · exact .inl rfl

theorem exec_play_errors {s t : State} (h : exec .play s = .next t) : KeepsErrorsOrRefuses .play s t := by
  rcases execPlay_cases s with ⟨-, he⟩ | ⟨-, he⟩ <;> cases h.symm.trans he
  · exact CanRefuse.play.refuses s
  · exact .inl rfl

/-- Rule R172 over every operation. -/
theorem exec_errors {i : Instr} {s t : State} (h : exec i s = .next t) : KeepsErrorsOrRefuses i s t := by
  cases i with
  | rxinit bits cb args => exact exec_rxinit_errors h
  | txinit bits => exact exec_txinit_errors h
  | append mark space => exact exec_append_errors h
  | tx addr data ext => exact exec_tx_errors h
  | play => exact exec_play_errors h
  | edge r => exact .inl (exec_edge_errors h)
  | fire => exact .inl (exec_fire_errors h)
  | close => exact .inl (exec_close_errors h)
  | decode => exact .inl (exec_decode_errors h)
  | errfn token => cases h; exact .inl rfl
  | docb cmd addr ext thresh => cases h; exact .inl (dispatch_errors cmd addr ext thresh s)

/-- Settles O56: what an operation does to the log of errors, and the reasons written out operation by operation. -/
theorem configErrorsChangeNothingElse : Obligations.ConfigErrorsChangeNothingElse := by
  refine ⟨fun i s t h => ?_, rfl, rfl, rfl⟩
  rcases exec_errors h with hsame | ⟨r, hr, ht⟩
  · exact .inl hsame
  refine .inr ⟨r, ht, ?_⟩
  cases hr with
  | rxinitAgain bits cb args => exact .inl ⟨.inl ⟨bits, cb, args, rfl, nofun⟩, .inr rfl⟩
  | rxinitSelector hv cb args =>
    exact .inl ⟨.inl ⟨_, cb, args, rfl, fun _ => ne_of_selectVariant_eq_none hv⟩, .inl rfl⟩
  | txinitAgain bits => exact .inl ⟨.inr ⟨bits, rfl, nofun⟩, .inr rfl⟩
  | txinitSelector hv => exact .inl ⟨.inr ⟨_, rfl, fun _ => ne_of_selectVariant_eq_none hv⟩, .inl rfl⟩
  | append mark space => exact .inr ⟨.inl ⟨mark, space, rfl⟩, rfl⟩
  | tx addr data ext => exact .inr ⟨.inr (.inl ⟨addr, data, ext, rfl⟩), rfl⟩
  | play => exact .inr ⟨.inr (.inr rfl), rfl⟩

end Sys2Proof.Machine
end

section
/-! Everything an operation can answer, said once: `Performs i s t` lists the next states and `Faults i s f` the faults, each
with its condition. Each listed answer is `exec`'s, and from every state one is listed, so `exec` answers nothing else
(`exec_eq_next`, `exec_eq_fault`, `exec_ne_refused`). With the two ways `TX` goes, obligation O47. -/

namespace Sys2Proof.Machine

/-! ### TX -/

theorem exec_tx_of_not_constructed {s : State} (hc : s.tx.conf = false) (addr data ext : Word) :
    exec (.tx addr data ext) s = .next (s.returnError (.tx addr data ext) .notConstructed) := by
  simp [exec, execTx, hc]

/-- Emptied first, the pulse memory has room for the train when its capacity is at least the train's length. -/
theorem exec_tx_of_room {s : State} (hc : s.tx.conf = true)
    (hroom : ∀ cap, s.env.params.ptCap = some cap → 1 + s.tx.cfg.bits.bits ≤ cap) (addr data ext : Word) :
    exec (.tx addr data ext) s =
      .next (s.setPulses (trainOf s.tx.cfg.bits (pack s.tx.cfg.bits addr data ext))) := by
  have happend := appendPairs_of_room (s := s.setPulses [])
    (ps := trainOf s.tx.cfg.bits (pack s.tx.cfg.bits addr data ext)) (by simpa using hroom)
  simp only [exec, execTx, hc, if_true, happend, setPulses_tx_pulses, List.nil_append]
  rfl

/-- Without room one of the appends overflows, so `TX` does (log entry 14). -/
theorem exec_tx_of_overflow {s : State} (hc : s.tx.conf = true) {cap : Nat} (hcap : s.env.params.ptCap = some cap)
    (hlt : cap < 1 + s.tx.cfg.bits.bits) (addr data ext : Word) :
    exec (.tx addr data ext) s = .fault .txOverflow := by
  cases happend : appendPairs (trainOf s.tx.cfg.bits (pack s.tx.cfg.bits addr data ext)) (s.setPulses []) with
  | ok t =>
    have hfit := appendPairs_fit happend (by simp [trainOf]) hcap
    rw [setPulses_tx_pulses, List.length_nil, trainOf_length] at hfit
    omega
  | error f =>
    obtain ⟨rfl, -⟩ := appendPairs_error happend
    simp [exec, execTx, hc, happend]

/-- Settles O47: the three answers of `TX`; the pairs of the train are those of the packed value's bits. -/
theorem txBuildsExactlyOneTrain : Obligations.TxBuildsExactlyOneTrain := by
  intro addr data ext s
  refine ⟨rfl, fun hc => exec_tx_of_not_constructed hc addr data ext, fun hc hroom => ?_,
    fun cap hc hcap hlt => exec_tx_of_overflow hc hcap hlt addr data ext⟩
  exact ⟨_, exec_tx_of_room hc hroom addr data ext, trainOf_length _ _, rfl, fun k hk => trainOf_get hk _⟩

/-! ### The answers -/

/-- The state once a reading has been recorded, from any state: `EDGE` writes the phase and the deadline at the first edge
only (rule R102). -/
def State.stored (s : State) (m : Memory) : State :=
  { s with rx := { s.rx with
      times := m, edge := s.rx.edge + 1
      phase := if s.rx.edge = 0 then .armed else s.rx.phase
      deadline := if s.rx.edge = 0 then s.env.now + s.rx.cfg.tblock else s.rx.deadline } }

/-- The operation is refused under this reason (rules R94 and R172). -/
inductive Refused : Instr → ConfigReason → State → Prop
  | rxinitAgain {s : State} (hp : s.rx.phase ≠ .unconf) (bits cb args : Word) :
      Refused (.rxinit bits cb args) .reinit s
  | rxinitSelector {s : State} {bits : Word} (hp : s.rx.phase = .unconf) (hv : selectVariant bits = none)
      (cb args : Word) : Refused (.rxinit bits cb args) .badVariant s
  | txinitAgain {s : State} (hc : s.tx.conf = true) (bits : Word) : Refused (.txinit bits) .reinit s
  | txinitSelector {s : State} {bits : Word} (hc : s.tx.conf = false) (hv : selectVariant bits = none) :
      Refused (.txinit bits) .badVariant s
  | append {s : State} (hc : s.tx.conf = false) (mark space : Word) : Refused (.append mark space) .notConstructed s
  | tx {s : State} (hc : s.tx.conf = false) (addr data ext : Word) : Refused (.tx addr data ext) .notConstructed s
  | play {s : State} (hc : s.tx.conf = false) : Refused .play .notConstructed s

/-- The operation leaves the state as it is. -/
inductive Ignored : Instr → State → Prop
  | close {s : State} (hp : s.rx.phase = .unconf) : Ignored .close s
  | edgeDetached {s : State} (hp : s.rx.phase = .unconf ∨ s.rx.phase = .closed) (r : Word) : Ignored (.edge r) s
  | edgeFull {s : State} (hp : s.rx.phase = .idle ∨ s.rx.phase = .armed) (he : s.rx.cfg.nedges < s.rx.edge)
      (r : Word) : Ignored (.edge r) s
  | fire {s : State} (hp : s.rx.phase = .fired ∨ s.rx.phase = .unconf ∨ s.rx.phase = .closed) : Ignored .fire s
  | decode {s : State} (hp : s.rx.phase ≠ .fired) : Ignored .decode s

/-- `i` performed in `s` answers the next state `t`. -/
inductive Performs : Instr → State → State → Prop
  | refused {i : Instr} {r : ConfigReason} {s : State} (h : Refused i r s) : Performs i s (s.returnError i r)
  | ignored {i : Instr} {s : State} (h : Ignored i s) : Performs i s s
  | rxinit {s : State} (hp : s.rx.phase = .unconf) (b : Variant) (cb args : Word) :
      Performs (.rxinit (BitVec.ofNat 32 b.bits) cb args) s (s.constructRx (proto s.env.params b) cb args)
  | errfn (h : Word) (s : State) : Performs (.errfn h) s (s.setErrh h)
  | close {s : State} (hp : s.rx.phase ≠ .unconf) : Performs .close s (s.setPhase .closed)
  | txinit {s : State} (hc : s.tx.conf = false) (b : Variant) :
      Performs (.txinit (BitVec.ofNat 32 b.bits)) s (s.constructTx (proto s.env.params b))
  | append {s : State} (hc : s.tx.conf = true) (hroom : pulsesFull s.env.params s.tx.pulses = false)
      (mark space : Word) : Performs (.append mark space) s (s.setPulses (s.tx.pulses ++ [⟨mark, space⟩]))
  | tx {s : State} (hc : s.tx.conf = true)
      (hroom : ∀ cap, s.env.params.ptCap = some cap → 1 + s.tx.cfg.bits.bits ≤ cap) (addr data ext : Word) :
      Performs (.tx addr data ext) s (s.setPulses (trainOf s.tx.cfg.bits (pack s.tx.cfg.bits addr data ext)))
  | play {s : State} (hc : s.tx.conf = true) :
      Performs .play s (s.emit (.txout s.tx.pulses s.tx.freq s.tx.gap))
  | edge {s : State} {r : Word} {m : Memory} (hp : s.rx.phase = .idle ∨ s.rx.phase = .armed)
      (he : s.rx.edge ≤ s.rx.cfg.nedges) (hw : s.rx.times.write s.rx.edge r = .ok m) :
      Performs (.edge r) s (s.stored m)
  | fire {s : State} (hp : s.rx.phase = .armed ∨ s.rx.phase = .idle) : Performs .fire s (s.setPhase .fired)
  | decode {s : State} {r : DecodeResult} (hp : s.rx.phase = .fired)
      (hr : runDecode s.rx.cfg s.rx.times s.rx.edge = .ok r) : Performs .decode s (finishDecode r s)
  | docb (cmd addr ext thresh : Word) (s : State) :
      Performs (.docb cmd addr ext thresh) s (dispatch cmd addr ext thresh s)

/-- `i` performed in `s` answers the fault `f`. -/
inductive Faults : Instr → State → Fault → Prop
  | race {s : State} (hp : s.rx.phase = .fired) (r : Word) : Faults (.edge r) s .raceFault
  | edgeOutside {s : State} (hp : s.rx.phase = .idle ∨ s.rx.phase = .armed) (he : s.rx.edge ≤ s.rx.cfg.nedges)
      (hsize : s.rx.times.size ≤ s.rx.edge) (r : Word) : Faults (.edge r) s .indexFault
  | append {s : State} (hc : s.tx.conf = true) (hfull : pulsesFull s.env.params s.tx.pulses = true)
      (mark space : Word) : Faults (.append mark space) s .txOverflow
  | tx {s : State} (hc : s.tx.conf = true) {cap : Nat} (hcap : s.env.params.ptCap = some cap)
      (hlt : cap < 1 + s.tx.cfg.bits.bits) (addr data ext : Word) : Faults (.tx addr data ext) s .txOverflow
  | decode {s : State} {f : Fault} (hp : s.rx.phase = .fired)
      (hr : runDecode s.rx.cfg s.rx.times s.rx.edge = .error f) : Faults .decode s f

/-- An attached receiver is neither unconfigured nor closed. -/
theorem attached_ne {ph : Phase} (h : ph = .idle ∨ ph = .armed) : ph ≠ .unconf ∧ ph ≠ .closed := by
  rcases h with rfl | rfl <;> decide

/-! ### Each listed answer is `exec`'s -/

theorem exec_of_refused {i : Instr} {r : ConfigReason} {s : State} (h : Refused i r s) :
    exec i s = .next (s.returnError i r) := by
  cases h with
  | rxinitAgain hp bits cb args => exact exec_rxinit_of_constructed hp bits cb args
  | rxinitSelector hp hv cb args => exact exec_rxinit_of_bad_selector hp hv cb args
  | txinitAgain hc bits => exact exec_txinit_of_constructed hc bits
  | txinitSelector hc hv => exact exec_txinit_of_bad_selector hc hv
  | append hc mark space => exact exec_append_of_not_constructed hc mark space
  | tx hc addr data ext => exact exec_tx_of_not_constructed hc addr data ext
  | play hc => exact exec_play_of_not_constructed hc

theorem exec_of_ignored {i : Instr} {s : State} (h : Ignored i s) : exec i s = .next s := by
  cases h with
  | close hp => exact exec_close_of_unconf hp
  | edgeDetached hp r => exact exec_edge_of_detached hp r
  | edgeFull hp he r => exact exec_edge_of_full hp he r
  | fire hp => exact exec_fire_of_not_waiting hp
  | decode hp => exact exec_decode_of_not_fired hp

theorem recordEdge_eq_stored {s : State} {r : Word} {m : Memory} (hw : s.rx.times.write s.rx.edge r = .ok m) :
    recordEdge r s = .ok (s.stored m) := by
  simp only [recordEdge, hw]
  by_cases h0 : s.rx.edge = 0
  · simp [h0, State.stored, State.setTimes, State.setPhase, State.setDeadline, State.setEdge]
  · simp [h0, State.stored, State.setTimes, State.setEdge]

/-- An edge that is not dropped goes on when it can be recorded. -/
theorem exec_edge_of_recordEdge_ok {s t : State} {r : Word} (hp : s.rx.phase = .idle ∨ s.rx.phase = .armed)
    (he : s.rx.edge ≤ s.rx.cfg.nedges) (hrec : recordEdge r s = .ok t) : exec (.edge r) s = .next t := by
  rcases hp with hp | hp <;> simp [exec, execEdge, hp, he, hrec]

/-- Outside the array it cannot be recorded (rule R53). -/
theorem exec_edge_of_outside {s : State} (hp : s.rx.phase = .idle ∨ s.rx.phase = .armed)
    (he : s.rx.edge ≤ s.rx.cfg.nedges) (hsize : s.rx.times.size ≤ s.rx.edge) (r : Word) :
    exec (.edge r) s = .fault .indexFault := by
  have hrec : recordEdge r s = .error .indexFault := by simp [recordEdge, Memory.write, Nat.not_lt.2 hsize]
  rcases hp with hp | hp <;> simp [exec, execEdge, hp, he, hrec]

theorem exec_of_performs {i : Instr} {s t : State} (h : Performs i s t) : exec i s = .next t := by
  cases h with
  | refused h => exact exec_of_refused h
  | ignored h => exact exec_of_ignored h
  | rxinit hp b cb args => exact exec_rxinit_of_variant hp b cb args
  | errfn h => rfl
  | close hp => exact exec_close_of_constructed hp
  | txinit hc b => exact exec_txinit_of_variant hc b
  | append hc hroom mark space => exact exec_append_of_room hc hroom mark space
  | tx hc hroom addr data ext => exact exec_tx_of_room hc hroom addr data ext
  | play hc => exact exec_play_of_constructed hc
  | edge hp he hw => exact exec_edge_of_recordEdge_ok hp he (recordEdge_eq_stored hw)
  | fire hp => exact exec_fire_of_waiting hp
  | decode hp hr => exact exec_decode_of_runDecode hp hr
  | docb => rfl

theorem exec_of_faults {i : Instr} {s : State} {f : Fault} (h : Faults i s f) : exec i s = .fault f := by
  cases h with
  | race hp r => exact exec_edge_of_fired hp r
  | edgeOutside hp he hsize r => exact exec_edge_of_outside hp he hsize r
  | append hc hfull mark space => exact exec_append_of_full hc hfull mark space
  | tx hc hcap hlt addr data ext => exact exec_tx_of_overflow hc hcap hlt addr data ext
  | decode hp hr => simp [exec, execDecode, hp, hr]

/-! ### From every state an answer is listed -/

/-- One of the two lists has an answer. -/
def Answered (i : Instr) (s : State) : Prop := (∃ t, Performs i s t) ∨ ∃ f, Faults i s f

theorem Performs.answered {i : Instr} {s t : State} (h : Performs i s t) : Answered i s := .inl ⟨t, h⟩

theorem Faults.answered {i : Instr} {s : State} {f : Fault} (h : Faults i s f) : Answered i s := .inr ⟨f, h⟩

theorem answered_rxinit (bits cb args : Word) (s : State) : Answered (.rxinit bits cb args) s := by
  by_cases hp : s.rx.phase = .unconf
  · cases hv : selectVariant bits with
    | none => exact (Performs.refused (.rxinitSelector hp hv cb args)).answered
    | some b =>
      obtain rfl := selectVariant_cases hv
      exact (Performs.rxinit hp b cb args).answered
  · exact (Performs.refused (.rxinitAgain hp bits cb args)).answered

theorem answered_close (s : State) : Answered .close s := by
  by_cases hp : s.rx.phase = .unconf
  · exact (Performs.ignored (.close hp)).answered
  · exact (Performs.close hp).answered

theorem answered_txinit (bits : Word) (s : State) : Answered (.txinit bits) s := by
  cases hc : s.tx.conf with
  | true => exact (Performs.refused (.txinitAgain hc bits)).answered
  | false =>
    cases hv : selectVariant bits with
    | none => exact (Performs.refused (.txinitSelector hc hv)).answered
    | some b =>
      obtain rfl := selectVariant_cases hv
      exact (Performs.txinit hc b).answered

theorem answered_append (mark space : Word) (s : State) : Answered (.append mark space) s := by
  cases hc : s.tx.conf with
  | false => exact (Performs.refused (.append hc mark space)).answered
  | true =>
    cases hfull : pulsesFull s.env.params s.tx.pulses with
    | false => exact (Performs.append hc hfull mark space).answered
    | true => exact (Faults.append hc hfull mark space).answered

theorem answered_tx (addr data ext : Word) (s : State) : Answered (.tx addr data ext) s := by
  cases hc : s.tx.conf with
  | false => exact (Performs.refused (.tx hc addr data ext)).answered
  | true =>
    by_cases hroom : ∀ cap, s.env.params.ptCap = some cap → 1 + s.tx.cfg.bits.bits ≤ cap
    · exact (Performs.tx hc hroom addr data ext).answered
    · push Not at hroom
      obtain ⟨cap, hcap, hlt⟩ := hroom
      exact (Faults.tx hc hcap hlt addr data ext).answered

theorem answered_play (s : State) : Answered .play s := by
  cases hc : s.tx.conf with
  | false => exact (Performs.refused (.play hc)).answered
  | true => exact (Performs.play hc).answered

theorem answered_edge_of_attached {s : State} (hp : s.rx.phase = .idle ∨ s.rx.phase = .armed) (r : Word) :
    Answered (.edge r) s := by
  by_cases he : s.rx.edge ≤ s.rx.cfg.nedges
  · by_cases hsize : s.rx.edge < s.rx.times.size
    · exact (Performs.edge hp he (write_of_lt hsize r)).answered
    · exact (Faults.edgeOutside hp he (Nat.not_lt.1 hsize) r).answered
  · exact (Performs.ignored (.edgeFull hp (Nat.not_le.1 he) r)).answered

theorem answered_edge (r : Word) (s : State) : Answered (.edge r) s := by
  cases hp : s.rx.phase with
  | unconf => exact (Performs.ignored (.edgeDetached (.inl hp) r)).answered
  | closed => exact (Performs.ignored (.edgeDetached (.inr hp) r)).answered
  | fired => exact (Faults.race hp r).answered
  | idle => exact answered_edge_of_attached (.inl hp) r
  | armed => exact answered_edge_of_attached (.inr hp) r

theorem answered_fire (s : State) : Answered .fire s := by
  cases hp : s.rx.phase with
  | armed => exact (Performs.fire (.inl hp)).answered
  | idle => exact (Performs.fire (.inr hp)).answered
  | fired => exact (Performs.ignored (.fire (.inl hp))).answered
  | unconf => exact (Performs.ignored (.fire (.inr (.inl hp)))).answered
  | closed => exact (Performs.ignored (.fire (.inr (.inr hp)))).answered

theorem answered_decode (s : State) : Answered .decode s := by
  by_cases hp : s.rx.phase = .fired
  · cases hr : runDecode s.rx.cfg s.rx.times s.rx.edge with
    | ok r => exact (Performs.decode hp hr).answered
    | error f => exact (Faults.decode hp hr).answered
  · exact (Performs.ignored (.decode hp)).answered

theorem answered (i : Instr) (s : State) : Answered i s := by
  cases i with
  | rxinit bits cb args => exact answered_rxinit bits cb args s
  | errfn h => exact (Performs.errfn h s).answered
  | close => exact answered_close s
  | txinit bits => exact answered_txinit bits s
  | append mark space => exact answered_append mark space s
  | tx addr data ext => exact answered_tx addr data ext s
  | play => exact answered_play s
  | edge r => exact answered_edge r s
  | fire => exact answered_fire s
  | decode => exact answered_decode s
  | docb cmd addr ext thresh => exact (Performs.docb cmd addr ext thresh s).answered

/-! ### So `exec` answers nothing else -/

theorem exec_eq_next {i : Instr} {s t : State} : exec i s = .next t ↔ Performs i s t := by
  refine ⟨fun h => ?_, exec_of_performs⟩
  rcases answered i s with ⟨u, hu⟩ | ⟨f, hf⟩
  · cases h.symm.trans (exec_of_performs hu)
    exact hu
  · cases h.symm.trans (exec_of_faults hf)

theorem exec_eq_fault {i : Instr} {s : State} {f : Fault} : exec i s = .fault f ↔ Faults i s f := by
  refine ⟨fun h => ?_, exec_of_faults⟩
  rcases answered i s with ⟨u, hu⟩ | ⟨g, hg⟩
  · cases h.symm.trans (exec_of_performs hu)
  · cases h.symm.trans (exec_of_faults hg)
    exact hg

theorem exec_ne_refused (i : Instr) (s : State) (why : Refusal) : exec i s ≠ .refused why := by
  intro h
  rcases answered i s with ⟨u, hu⟩ | ⟨f, hf⟩
  · cases h.symm.trans (exec_of_performs hu)
  · cases h.symm.trans (exec_of_faults hf)

/-- No operation touches the mark or what the environment holds. -/
theorem Performs.faulted_env {i : Instr} {s t : State} (h : Performs i s t) :
    t.faulted = s.faulted ∧ t.env = s.env := by
  cases h <;> simp [finishDecode, State.stored]

end Sys2Proof.Machine
end

section
/-! One step (rules R16, R42, R74 and R200): obligations O4, O5, O6, O7 and O9. -/

namespace Sys2Proof.Machine

/-! ### Words -/

/-- Settles O5: fourteen closed words. -/
theorem exampleWordsDecode : Obligations.ExampleWordsDecode := by
  unfold Obligations.ExampleWordsDecode
  decide

/-- An operation's word on another port than its agent's is illegal for that reason. -/
theorem decodeOn_encode_of_ne_port {i : Instr} (hwf : i.wf = true) {p : Port} (hp : p ≠ i.port) :
    decodeOn p (encode i) = .error .wrongPort := by
  simp only [decodeOn, decodeWord_encode hwf, if_neg hp.symm]

/-- Settles O4: the word decodes, its port does not fit, and a refusal takes nothing but the word. -/
theorem wordsOnAWrongPortAreRefused : Obligations.WordsOnAWrongPortAreRefused := by
  intro s T p i rest hf hwf hp hi
  have hstep : step s = .refused (.illegalWord .wrongPort) :=
    step_of_decodeOn_error hf hi (decodeOn_encode_of_ne_port hwf hp)
  exact ⟨hstep, by rw [hstep, settle_refused hi]⟩

/-- The state in which the next input is performed: its time is the present, and it is no longer waiting. -/
def State.taking (s : State) (T : Nat) (rest : List Input) : State :=
  { s with env := { s.env with now := T, inbox := rest } }

/-- Rule R73: the step on a word that its port decodes. -/
theorem step_of_decodeOn {s : State} {T : Nat} {p : Port} {w : OpWord} {rest : List Input} {i : Instr}
    (hf : s.faulted = false) (hi : s.env.inbox = .word T p w :: rest) (hd : decodeOn p w = .ok i) :
    step s = exec i (s.taking T rest) := by
  simp [step, takeInput_cons hi, hf, hd, State.taking, Input.time]

/-- Settles O6: the operation's word decodes to it on its agent's port. -/
theorem stepPerformsTheDeliveredOperation : Obligations.StepPerformsTheDeliveredOperation :=
  fun _ _ _ _ hf hwf hi => step_of_decodeOn hf hi (decodeOn_encode hwf)

/-! ### Faults and reset -/

theorem step_of_faulted {s : State} {T : Nat} {p : Port} {w : OpWord} {rest : List Input}
    (hf : s.faulted = true) (hi : s.env.inbox = .word T p w :: rest) : step s = .fault .faultedRun := by
  simp [step, takeInput_cons hi, hf]

theorem settle_fault_faulted (s : State) (f : Fault) : (settle s (.fault f)).faulted = true := rfl

/-- Settles O7: a word in a faulted state, a step that faults, and an operation that goes on. -/
theorem faultedStaysFaulted : Obligations.FaultedStaysFaulted := by
  refine ⟨fun s T p w rest hf hi => ?_, fun s f h => ?_, fun i s t h => (exec_eq_next.1 h).faulted_env.1⟩
  · have hstep := step_of_faulted hf hi
    exact ⟨hstep, by rw [hstep, settle_fault_faulted]⟩
  · rw [h, settle_fault_faulted]

theorem step_of_rst {s : State} {T : Nat} {rest : List Input} (hi : s.env.inbox = .rst T :: rest) :
    step s = .next (assertReset (s.taking T rest)) := by
  simp [step, takeInput_cons hi, State.taking, Input.time]

/-- Settles O9: the receiver and the transmitter of rule R39, with no array to read from. -/
theorem resetInputResetsFromAnyState : Obligations.ResetInputResetsFromAnyState :=
  fun _ _ _ hi => ⟨_, step_of_rst hi, rfl, rfl, rfl, fun i => read_of_size_le (Nat.zero_le i), rfl, rfl, rfl, rfl, rfl⟩

/-- A step that goes on did nothing, asserted reset, or performed the operation of a word. -/
theorem step_next_cases {s t : State} (h : step s = .next t) :
    (s.env.inbox = [] ∧ t = s) ∨
      ∃ i rest, s.env.inbox = i :: rest ∧
        ((∃ T, i = .rst T ∧ t = assertReset (s.taking T rest)) ∨
          (∃ T p w j, i = .word T p w ∧ s.faulted = false ∧ decodeOn p w = .ok j ∧
            Performs j (s.taking T rest) t)) := by
  rcases step_cases s with ⟨hi, hs⟩ | ⟨i, rest, u, hi, rfl, hcase⟩
  · cases h.symm.trans hs
    exact .inl ⟨hi, rfl⟩
  refine .inr ⟨i, rest, hi, ?_⟩
  rcases hcase with ⟨T, rfl, hs⟩ | ⟨T, p, w, rfl, ⟨-, hs⟩ | ⟨-, why, -, hs⟩ | ⟨hf, j, hd, hs⟩⟩
  · cases h.symm.trans hs
    exact .inl ⟨T, rfl, rfl⟩
  · cases h.symm.trans hs
  · cases h.symm.trans hs
  · exact .inr ⟨T, p, w, j, rfl, hf, hd, exec_eq_next.1 (hs.symm.trans h)⟩

end Sys2Proof.Machine
end

section
/-! The invariant (rule R37 and the clauses of `Inv` beside it): obligations O11, O12, O13 and O14. It says one thing about
the receiver and one about the transmitter, so each operation keeps it half by half. -/

namespace Sys2Proof.Machine

/-! ### The two halves -/

/-- What `Inv` says of the receiver `x` under the parameters `p`. -/
structure RxInv (p : Params) (x : Rx) : Prop where
  edge_bound : x.phase ≠ .unconf → x.edge ≤ x.cfg.nedges + 1
  idle_edge : x.phase = .idle → x.edge = 0
  armed_edge : x.phase = .armed → 1 ≤ x.edge
  slots_written : x.phase = .armed ∨ x.phase = .fired → ∀ i < x.edge, x.times.holds i = true
  unconf_edge : x.phase = .unconf → x.edge = 0
  times_wf : x.times.wf = true
  times_size : x.phase ≠ .unconf → x.times.size = x.cfg.nedges + 1
  readings : ∀ c ∈ x.times.cells, isReading c.2 = true
  cfg : x.cfg = proto p x.cfg.bits

/-- What `Inv` says of the transmitter `x` under the parameters `p`. -/
structure TxInv (p : Params) (x : Tx) : Prop where
  pulses_empty : x.conf = false → x.pulses = []
  cfg : x.cfg = proto p x.cfg.bits
  freq : x.freq = x.cfg.freq
  gap : x.gap = x.cfg.gap
  capacity : ∀ cap, p.ptCap = some cap → x.pulses.length ≤ cap

theorem inv_iff {s : State} : Inv s ↔ RxInv s.env.params s.rx ∧ TxInv s.env.params s.tx := by
  constructor
  · intro ⟨eb, ie, ae, sw, ue, pe, tw, ts, rd, rc, tc, tf, tg, cap⟩
    exact ⟨⟨eb, ie, ae, sw, ue, tw, ts, rd, rc⟩, ⟨pe, tc, tf, tg, cap⟩⟩
  · intro ⟨⟨eb, ie, ae, sw, ue, tw, ts, rd, rc⟩, ⟨pe, tc, tf, tg, cap⟩⟩
    exact ⟨eb, ie, ae, sw, ue, pe, tw, ts, rd, rc, tc, tf, tg, cap⟩

theorem rxInv_reset (p : Params) : RxInv p (Rx.reset p) where
  edge_bound _ := Nat.zero_le _
  idle_edge _ := rfl
  armed_edge h := by cases h
  slots_written _ _ h := absurd h (Nat.not_lt_zero _)
  unconf_edge _ := rfl
  times_wf := rfl
  times_size h := absurd rfl h
  readings _ h := by cases h
  cfg := rfl

theorem txInv_reset (p : Params) : TxInv p (Tx.reset p) where
  pulses_empty _ := rfl
  cfg := rfl
  freq := rfl
  gap := rfl
  capacity _ _ := Nat.zero_le _

/-- Settles O11: both halves hold after reset. -/
theorem resetMeetsTheInvariant : Obligations.ResetMeetsTheInvariant :=
  inv_iff.2 ⟨rxInv_reset _, txInv_reset _⟩

/-- The invariant speaks of the parameters alone among what the environment holds. -/
theorem Inv.taking {s : State} (h : Inv s) (T : Nat) (rest : List Input) : Inv (s.taking T rest) :=
  have ⟨hrx, htx⟩ := inv_iff.1 h
  inv_iff.2 ⟨hrx, htx⟩

/-! ### The receiver -/

theorem rxInv_constructed (s : State) (b : Variant) (cb args : Word) :
    RxInv s.env.params (s.constructRx (proto s.env.params b) cb args).rx where
  edge_bound _ := Nat.zero_le _
  idle_edge _ := rfl
  armed_edge h := by cases h
  slots_written _ _ h := absurd h (Nat.not_lt_zero _)
  unconf_edge _ := rfl
  times_wf := rfl
  times_size _ := rfl
  readings _ h := by cases h
  cfg := by simp

/-- The moves of a constructed receiver to FIRED, IDLE and CLOSED, its memory and record staying. -/
theorem RxInv.moved {p : Params} {x : Rx} (h : RxInv p x) {ph : Phase} {n : Nat} (hx : x.phase ≠ .unconf)
    (hph : ph = .fired ∨ ph = .idle ∨ ph = .closed) (hn : n ≤ x.edge) (hidle : ph = .idle → n = 0)
    (hfired : ph = .fired → ∀ i < n, x.times.holds i = true) : RxInv p { x with phase := ph, edge := n } where
  edge_bound _ := hn.trans (h.edge_bound hx)
  idle_edge := hidle
  armed_edge harmed := by rcases hph with rfl | rfl | rfl <;> cases harmed
  slots_written hwritten := hfired (hwritten.resolve_left (by rcases hph with rfl | rfl | rfl <;> nofun))
  unconf_edge hunconf := by rcases hph with rfl | rfl | rfl <;> cases hunconf
  times_wf := h.times_wf
  times_size _ := h.times_size hx
  readings := h.readings
  cfg := h.cfg

/-- While the receiver is attached every slot below its counter is written. -/
theorem RxInv.attached_slots {p : Params} {x : Rx} (h : RxInv p x) (hp : x.phase = .idle ∨ x.phase = .armed) :
    ∀ i < x.edge, x.times.holds i = true := by
  rcases hp with hp | hp
  · rw [h.idle_edge hp]
    exact fun i hi => absurd hi (Nat.not_lt_zero i)
  · exact h.slots_written (.inl hp)

/-- Recording an edge arms the receiver, or finds it armed. -/
theorem RxInv.stored_phase {s : State} (h : RxInv s.env.params s.rx) (hp : s.rx.phase = .idle ∨ s.rx.phase = .armed)
    (m : Memory) : (s.stored m).rx.phase = .armed := by
  by_cases h0 : s.rx.edge = 0
  · exact if_pos h0
  · exact (if_neg h0).trans (hp.resolve_left (mt h.idle_edge h0))

theorem RxInv.stored {s : State} (h : RxInv s.env.params s.rx) (hp : s.rx.phase = .idle ∨ s.rx.phase = .armed)
    (he : s.rx.edge ≤ s.rx.cfg.nedges) {r : Word} (hr : isReading r = true) {m : Memory}
    (hw : s.rx.times.write s.rx.edge r = .ok m) : RxInv s.env.params (s.stored m).rx := by
  have harmed := h.stored_phase hp m
  have hconf := (attached_ne hp).1
  refine ⟨fun _ => Nat.succ_le_succ he, fun hidle => ?_, fun _ => Nat.succ_pos _, fun _ i hi => ?_, fun hunconf => ?_,
    write_keeps_wf hw h.times_wf, fun _ => (write_size hw).trans (h.times_size hconf), fun c hc => ?_, h.cfg⟩
  · cases harmed.symm.trans hidle
  · by_cases hlast : i = s.rx.edge
    · exact hlast ▸ holds_write_same hw
    · exact (holds_write_other hw hlast).trans (h.attached_slots hp i (by have : i < s.rx.edge + 1 := hi; omega))
  · cases harmed.symm.trans hunconf
  · obtain ⟨-, rfl⟩ := write_cases hw
    rcases mem_insert hc with rfl | hold
    · exact hr
    · exact h.readings c hold

theorem Performs.keeps_rxInv {i : Instr} {s t : State} (h : Performs i s t) (hwf : i.wf = true)
    (hx : RxInv s.env.params s.rx) : RxInv s.env.params t.rx := by
  cases h with
  | refused _ | ignored _ | txinit _ _ | append _ _ _ _ | tx _ _ _ _ _ | play _ => exact hx
  | rxinit _ b cb args => exact rxInv_constructed s b cb args
  | errfn token => exact { hx with }
  | close hp => exact hx.moved hp (.inr (.inr rfl)) le_rfl nofun nofun
  | edge hp he hw => exact hx.stored hp he hwf hw
  | fire hp =>
    exact hx.moved (attached_ne hp.symm).1 (.inl rfl) le_rfl nofun fun _ => hx.attached_slots hp.symm
  | @decode _ r hp _ =>
    rw [finishDecode_rx]
    exact hx.moved (by simp [hp]) (.inr (.inl rfl)) (Nat.zero_le _) (fun _ => rfl) nofun
  | docb cmd addr ext thresh => rwa [dispatch_rx]

/-! ### The transmitter -/

/-- Another content of a constructed transmitter's pulse memory, within its capacity. -/
theorem TxInv.setPulses {s : State} (h : TxInv s.env.params s.tx) (hc : s.tx.conf = true) {ps : List Pair}
    (hcap : ∀ cap, s.env.params.ptCap = some cap → ps.length ≤ cap) : TxInv s.env.params (s.setPulses ps).tx where
  pulses_empty hc' := by cases hc.symm.trans hc'
  cfg := h.cfg
  freq := h.freq
  gap := h.gap
  capacity := hcap

theorem Performs.keeps_txInv {i : Instr} {s t : State} (h : Performs i s t) (hx : TxInv s.env.params s.tx) :
    TxInv s.env.params t.tx := by
  cases h with
  | refused _ | ignored _ | rxinit _ _ _ _ | errfn _ | close _ | play _ | edge _ _ _ | fire _ => exact hx
  | txinit hc b => exact ⟨fun _ => rfl, by simp, rfl, rfl, fun _ _ => Nat.zero_le _⟩
  | append hc hroom mark space =>
    refine hx.setPulses hc fun cap hcap => ?_
    have hlt := pulsesFull_eq_false.1 hroom cap hcap
    simpa using hlt
  | tx hc hroom addr data ext => exact hx.setPulses hc (by simpa using hroom)
  | decode _ _ => rwa [finishDecode, dispatch_tx]
  | docb cmd addr ext thresh => rwa [dispatch_tx]

/-! ### Steps -/

theorem Performs.keeps_inv {i : Instr} {s t : State} (h : Performs i s t) (hwf : i.wf = true) (hinv : Inv s) :
    Inv t := by
  obtain ⟨hrx, htx⟩ := inv_iff.1 hinv
  rw [inv_iff, h.faulted_env.2]
  exact ⟨h.keeps_rxInv hwf hrx, h.keeps_txInv htx⟩

/-- Settles O12: a step does nothing, resets both halves, or performs a well-formed operation, which keeps each half. -/
theorem stepKeepsTheInvariant : Obligations.StepKeepsTheInvariant := by
  intro s t hinv h
  rcases step_next_cases h with ⟨-, rfl⟩ | ⟨i, rest, -, ⟨T, -, rfl⟩ | ⟨T, p, w, j, -, -, hd, hperf⟩⟩
  · exact hinv
  · exact inv_iff.2 ⟨rxInv_reset _, txInv_reset _⟩
  · exact hperf.keeps_inv (decodeOn_eq_ok.1 hd).1 (hinv.taking T rest)

/-! ### Faults -/

/-- Settles O13: below the expected count the counter's slot lies inside the array, and a fired block is readable, so of the
faults only the race and the overflow remain. -/
theorem onlyRaceAndOverflowCanFault : Obligations.OnlyRaceAndOverflowCanFault := by
  intro i s f hinv h
  cases exec_eq_fault.1 h with
  | race hp r => exact .inl ⟨rfl, hp, r, rfl⟩
  | edgeOutside hp he hsize r =>
    have := hinv.times_size (attached_ne hp).1
    omega
  | append hc hfull mark space =>
    obtain ⟨cap, hcap, hle⟩ := pulsesFull_eq_true.1 hfull
    exact .inr ⟨rfl, cap, hcap, .inl ⟨mark, space, rfl, (hinv.tx_capacity cap hcap).antisymm hle⟩⟩
  | tx hc hcap hlt addr data ext => exact .inr ⟨rfl, _, hcap, .inr ⟨addr, data, ext, rfl, hlt⟩⟩
  | decode hp hr =>
    obtain ⟨r, hok⟩ := hinv.runDecode_ok hp
    cases hr.symm.trans hok

/-- An operation whose agent keeps its promise does not fault while the pulse memory is unbounded. -/
theorem exec_ne_fault_of_keepsPromise {i : Instr} {s : State} {prev : Option Word} (hinv : Inv s)
    (hcap : s.env.params.ptCap = none) (hkeeps : keepsPromise prev i s = true) (f : Fault) : exec i s ≠ .fault f := by
  intro h
  rcases onlyRaceAndOverflowCanFault i s f hinv h with ⟨-, hp, r, rfl⟩ | ⟨-, cap, hsome, -⟩
  · simp [keepsPromise, edgeInTime, hp] at hkeeps
  · cases hcap.symm.trans hsome

/-- Settles O14: the step performs the delivered operation, which neither faults nor refuses. -/
theorem honestEnvironmentNeverStopsTheMachine : Obligations.HonestEnvironmentNeverStopsTheMachine := by
  intro s T i rest prev hinv hf hcap hwf hi hkeeps
  have hstep : step s = exec i (s.taking T rest) := step_of_decodeOn hf hi (decodeOn_encode hwf)
  rcases answered i (s.taking T rest) with ⟨t, hperf⟩ | ⟨f, hfault⟩
  · exact ⟨t, hstep.trans (exec_of_performs hperf), hperf.keeps_inv hwf (hinv.taking T rest),
      hperf.faulted_env.1.trans hf⟩
  · exact absurd (exec_of_faults hfault) (exec_ne_fault_of_keepsPromise (hinv.taking T rest) hcap hkeeps f)

end Sys2Proof.Machine
end

section
/-! What changes which part of the state (10_state.md sections 2 and 3): obligations O25, O53, O55, O57 and O58. Each part's
writers are read off the list of answers `Performs`. -/

namespace Sys2Proof.Machine

/-! ### The writers of the registers (rule R23) -/

theorem Performs.phase_writer {i : Instr} {s t : State} (h : Performs i s t) (hne : t.rx.phase ≠ s.rx.phase) :
    (∃ b c a, i = .rxinit b c a) ∨ (∃ r, i = .edge r) ∨ i = .fire ∨ i = .decode ∨ i = .close := by
  cases h with
  | rxinit _ b cb args => exact .inl ⟨_, cb, args, rfl⟩
  | @edge _ r => exact .inr (.inl ⟨r, rfl⟩)
  | fire _ => exact .inr (.inr (.inl rfl))
  | decode _ _ => exact .inr (.inr (.inr (.inl rfl)))
  | close _ => exact .inr (.inr (.inr (.inr rfl)))
  | docb => exact absurd (congrArg _ (dispatch_rx _ _ _ _ _)) hne
  | _ => exact absurd rfl hne

theorem Performs.edge_writer {i : Instr} {s t : State} (h : Performs i s t) (hne : t.rx.edge ≠ s.rx.edge) :
    (∃ b c a, i = .rxinit b c a) ∨ (∃ r, i = .edge r) ∨ i = .decode := by
  cases h with
  | rxinit _ b cb args => exact .inl ⟨_, cb, args, rfl⟩
  | @edge _ r => exact .inr (.inl ⟨r, rfl⟩)
  | decode _ _ => exact .inr (.inr rfl)
  | docb => exact absurd (congrArg _ (dispatch_rx _ _ _ _ _)) hne
  | _ => exact absurd rfl hne

theorem Performs.deadline_writer {i : Instr} {s t : State} (h : Performs i s t)
    (hne : t.rx.deadline ≠ s.rx.deadline) : ∃ r, i = .edge r := by
  cases h with
  | @edge _ r => exact ⟨r, rfl⟩
  | decode _ _ => exact absurd (congrArg _ (finishDecode_rx _ _)) hne
  | docb => exact absurd (congrArg _ (dispatch_rx _ _ _ _ _)) hne
  | _ => exact absurd rfl hne

theorem Performs.times_writer {i : Instr} {s t : State} (h : Performs i s t) (hne : t.rx.times ≠ s.rx.times) :
    (∃ b c a, i = .rxinit b c a) ∨ ∃ r, i = .edge r := by
  cases h with
  | rxinit _ b cb args => exact .inl ⟨_, cb, args, rfl⟩
  | @edge _ r => exact .inr ⟨r, rfl⟩
  | decode _ _ => exact absurd (congrArg _ (finishDecode_rx _ _)) hne
  | docb => exact absurd (congrArg _ (dispatch_rx _ _ _ _ _)) hne
  | _ => exact absurd rfl hne

theorem Performs.errh_writer {i : Instr} {s t : State} (h : Performs i s t) (hne : t.rx.errh ≠ s.rx.errh) :
    ∃ token, i = .errfn token := by
  cases h with
  | errfn token => exact ⟨token, rfl⟩
  | decode _ _ => exact absurd (congrArg _ (finishDecode_rx _ _)) hne
  | docb => exact absurd (congrArg _ (dispatch_rx _ _ _ _ _)) hne
  | _ => exact absurd rfl hne

/-- Only `RXINIT` writes what the receiver is constructed with, and only in UNCONF. -/
theorem Performs.rx_config {i : Instr} {s t : State} (h : Performs i s t) :
    (s.rx.phase = .unconf ∧ ∃ b c a, i = .rxinit b c a) ∨
      (t.rx.cfg = s.rx.cfg ∧ t.rx.cb = s.rx.cb ∧ t.rx.args = s.rx.args ∧ t.rx.times.size = s.rx.times.size) := by
  cases h with
  | rxinit hp b cb args => exact .inl ⟨hp, _, cb, args, rfl⟩
  | edge _ _ hw => exact .inr ⟨rfl, rfl, rfl, write_size hw⟩
  | decode _ _ => rw [finishDecode_rx]; exact .inr ⟨rfl, rfl, rfl, rfl⟩
  | docb => rw [dispatch_rx]; exact .inr ⟨rfl, rfl, rfl, rfl⟩
  | _ => exact .inr ⟨rfl, rfl, rfl, rfl⟩

/-- Only `TXINIT` writes what the transmitter is constructed with, and only before there is one. -/
theorem Performs.tx_config {i : Instr} {s t : State} (h : Performs i s t) :
    (s.tx.conf = false ∧ ∃ b, i = .txinit b) ∨
      (t.tx.conf = s.tx.conf ∧ t.tx.cfg = s.tx.cfg ∧ t.tx.freq = s.tx.freq ∧ t.tx.gap = s.tx.gap) := by
  cases h with
  | txinit hc b => exact .inl ⟨hc, _, rfl⟩
  | decode _ _ => rw [finishDecode, dispatch_tx]; exact .inr ⟨rfl, rfl, rfl, rfl⟩
  | docb => rw [dispatch_tx]; exact .inr ⟨rfl, rfl, rfl, rfl⟩
  | _ => exact .inr ⟨rfl, rfl, rfl, rfl⟩

theorem Performs.pulses_writer {i : Instr} {s t : State} (h : Performs i s t) (hne : t.tx.pulses ≠ s.tx.pulses) :
    (∃ b, i = .txinit b) ∨ (∃ m p, i = .append m p) ∨ ∃ a d e, i = .tx a d e := by
  cases h with
  | txinit _ b => exact .inl ⟨_, rfl⟩
  | append _ _ mark space => exact .inr (.inl ⟨mark, space, rfl⟩)
  | tx _ _ addr data ext => exact .inr (.inr ⟨addr, data, ext, rfl⟩)
  | decode _ _ => exact absurd (congrArg _ (dispatch_tx _ _ _ _ _)) hne
  | docb => exact absurd (congrArg _ (dispatch_tx _ _ _ _ _)) hne
  | _ => exact absurd rfl hne

/-- Settles O53: one lemma for each register. -/
theorem registersChangeOnlyByTheirWriters : Obligations.RegistersChangeOnlyByTheirWriters := by
  intro i s t hexec
  have h := exec_eq_next.1 hexec
  refine ⟨h.phase_writer, h.edge_writer, h.deadline_writer, h.times_writer, fun hne => ?_, h.errh_writer,
    fun hne => ?_, h.pulses_writer, h.faulted_env⟩
  · rcases h.rx_config with ⟨-, hi⟩ | ⟨hcfg, hcb, hargs, -⟩
    · exact hi
    · exact absurd hne (by simp [hcfg, hcb, hargs])
  · rcases h.tx_config with ⟨-, hi⟩ | ⟨hconf, hcfg, hfreq, hgap⟩
    · exact hi
    · exact absurd hne (by simp [hconf, hcfg, hfreq, hgap])

/-! ### The configuration -/

/-- No operation leads back to UNCONF. -/
theorem Performs.phase_ne_unconf {i : Instr} {s t : State} (h : Performs i s t) (hp : s.rx.phase ≠ .unconf) :
    t.rx.phase ≠ .unconf := by
  cases h with
  | rxinit hunconf => exact absurd hunconf hp
  | close _ | fire _ => exact nofun
  | edge =>
    change (if s.rx.edge = 0 then .armed else s.rx.phase) ≠ Phase.unconf
    split
    · exact nofun
    · exact hp
  | decode _ _ => rw [finishDecode_rx]; exact nofun
  | docb => rwa [dispatch_rx]
  | _ => exact hp

/-- Settles O55: the constructors act before construction only, and nothing undoes it. -/
theorem configurationIsFixedByConstruction : Obligations.ConfigurationIsFixedByConstruction := by
  intro i s t hexec
  have h := exec_eq_next.1 hexec
  refine ⟨fun hp => ⟨h.phase_ne_unconf hp, ?_⟩, fun hc => ?_⟩
  · exact h.rx_config.resolve_left fun hinit => hp hinit.1
  · obtain ⟨hconf, hrest⟩ := h.tx_config.resolve_left fun hinit => by simp [hc] at hinit
    exact ⟨hconf.trans hc, hrest⟩

/-- No operation leads out of CLOSED. -/
theorem Performs.closed_stays {i : Instr} {s t : State} (h : Performs i s t) (hp : s.rx.phase = .closed) :
    t.rx.phase = .closed := by
  cases h with
  | rxinit hunconf => cases hp.symm.trans hunconf
  | close _ => rfl
  | edge hattached => exact absurd hp (attached_ne hattached).2
  | fire hwaiting => exact absurd hp (attached_ne hwaiting.symm).2
  | decode hfired => cases hp.symm.trans hfired
  | docb => rwa [dispatch_rx]
  | _ => exact hp

/-- Settles O58: without reset a step does nothing or performs an operation, and a faulted state answers no word. -/
theorem onlyResetUndoesConstruction : Obligations.OnlyResetUndoesConstruction := by
  intro s hrst
  refine ⟨fun hf => ?_, fun t hstep => ?_⟩
  · cases hi : s.env.inbox with
    | nil => rw [show step s = .next s by simp [step, takeInput, hi]]; exact hf
    | cons i rest =>
      cases i with
      | rst T => exact absurd hi (hrst T rest)
      | word T p w => rw [step_of_faulted hf hi, settle_fault_faulted]
  · rcases step_next_cases hstep with ⟨-, rfl⟩ | ⟨i, rest, hi, ⟨T, rfl, -⟩ | ⟨T, p, w, j, -, -, -, h⟩⟩
    · exact ⟨id, fun hc => ⟨hc, rfl⟩, fun _ => rfl⟩
    · exact absurd hi (hrst T rest)
    · obtain ⟨hrx, htx⟩ := configurationIsFixedByConstruction j _ t (exec_of_performs h)
      exact ⟨h.closed_stays, fun hc => ⟨(htx hc).1, (htx hc).2.1⟩, fun hp => (hrx hp).2.1⟩

/-! ### The phase -/

/-- Every variant's selector is one of the three of rule R91. -/
theorem selector_mem (b : Variant) :
    (BitVec.ofNat 32 b.bits : Word) = 12 ∨ (BitVec.ofNat 32 b.bits : Word) = 15 ∨
      (BitVec.ofNat 32 b.bits : Word) = 20 := by
  cases b <;> decide

/-- Settles O25: the answers one by one, each against its row of the table. -/
theorem phaseTransitionTable : Obligations.PhaseTransitionTable := by
  intro i s t hinv hexec
  cases exec_eq_next.1 hexec with
  | refused h =>
    cases h with
    | rxinitAgain hp =>
      cases hq : s.rx.phase with
      | unconf => exact absurd hq hp
      | _ => simp [hq]
    | rxinitSelector hp hv => simpa [hp] using ne_of_selectVariant_eq_none hv
    | _ => rfl
  | ignored h =>
    cases h with
    | close hp => simp [hp]
    | edgeDetached hp r => rcases hp with hp | hp <;> simp [hp]
    | edgeFull hp he r =>
      rcases hp with hp | hp
      · exact absurd he (by simp [hinv.idle_edge hp])
      · simp [hp]
    | fire hp => rcases hp with hp | hp | hp <;> simp [hp]
    | decode hp =>
      cases hq : s.rx.phase with
      | fired => exact absurd hq hp
      | _ => rfl
  | rxinit hp b =>
    rw [hp]
    exact (if_pos (selector_mem b)).symm
  | close hp =>
    cases hq : s.rx.phase with
    | unconf => exact absurd hq hp
    | _ => rfl
  | edge hp he hw =>
    rw [(inv_iff.1 hinv).1.stored_phase hp]
    rcases hp with hp | hp <;> simp [hp]
  | fire hp => rcases hp with hp | hp <;> simp [hp]
  | decode hp hr => simp [finishDecode_rx, hp]
  | docb => rw [dispatch_rx]
  | _ => rfl

/-! ### The events -/

/-- A dispatch adds the callback's event, the handler's, or none. -/
theorem dispatch_events (cmd addr ext thresh : Word) (s : State) :
    (dispatch cmd addr ext thresh s).out.events = s.out.events ∨
      (dispatch cmd addr ext thresh s).out.events = s.out.events ++ [.cb s.rx.cb cmd addr ext s.rx.args] ∨
      ((dispatch cmd addr ext thresh s).out.events = s.out.events ++ [.err s.rx.errh cmd] ∧ s.rx.errh ≠ 0) := by
  rcases dispatch_cases cmd addr ext thresh s with ⟨h, -⟩ | ⟨h, -⟩ | ⟨h, -, -, -, he⟩ <;> rw [h]
  · exact .inl rfl
  · exact .inr (.inl rfl)
  · exact .inr (.inr ⟨rfl, he⟩)

/-- Settles O57: two operations dispatch, one plays, the others add no event. -/
theorem eventsComeOneAtATimeFromThreeOperations : Obligations.EventsComeOneAtATimeFromThreeOperations := by
  intro i s t hexec
  cases exec_eq_next.1 hexec with
  | @decode _ r hp hr =>
    rcases dispatch_events r.cmd r.addr r.ext s.rx.cfg.thresh ((s.setEdge 0).setPhase .idle) with h | h | ⟨h, he⟩
    · exact .inl h
    · exact .inr (.inl ⟨_, _, _, h, .inl rfl⟩)
    · exact .inr (.inr (.inl ⟨_, h, he, .inl rfl⟩))
  | docb cmd addr ext thresh =>
    rcases dispatch_events cmd addr ext thresh s with h | h | ⟨h, he⟩
    · exact .inl h
    · exact .inr (.inl ⟨cmd, addr, ext, h, .inr ⟨thresh, rfl⟩⟩)
    · exact .inr (.inr (.inl ⟨cmd, h, he, .inr ⟨addr, ext, thresh, rfl⟩⟩))
  | play hc => exact .inr (.inr (.inr ⟨rfl, rfl⟩))
  | _ => exact .inl rfl

end Sys2Proof.Machine
end

section
/-! The timestamp memory's faults and its canonical form (rules R53 and R54): obligation O17. In canonical form a slot's reading
is what is listed for it, and a listing that rises is determined by its readings. -/

namespace Sys2Proof.Machine

theorem lookup_eq_none_of_lt {size lo i : Nat} {cs : List (Nat × Word)} (h : cellsRise size lo cs = true)
    (hi : i < lo) : lookupCell i cs = none := by
  induction cs generalizing lo with
  | nil => rfl
  | cons c cs ih =>
    obtain ⟨j, w⟩ := c
    simp only [cellsRise, Bool.and_eq_true, decide_eq_true_eq] at h
    obtain ⟨⟨hlo, -⟩, hrest⟩ := h
    rw [lookupCell, if_neg (by omega), ih hrest (by omega)]

theorem lt_size_of_lookup {size lo i : Nat} {v : Word} {cs : List (Nat × Word)} (h : cellsRise size lo cs = true)
    (hv : lookupCell i cs = some v) : i < size := by
  induction cs generalizing lo with
  | nil => cases hv
  | cons c cs ih =>
    obtain ⟨j, w⟩ := c
    simp only [cellsRise, Bool.and_eq_true, decide_eq_true_eq] at h
    obtain ⟨⟨-, hj⟩, hrest⟩ := h
    by_cases hij : i = j
    · exact hij ▸ hj
    · rw [lookupCell, if_neg hij] at hv
      exact ih hrest hv

/-- A listing that rises lists its first slot from that slot on. -/
theorem cellsRise_head {size lo j : Nat} {w : Word} {cs : List (Nat × Word)}
    (h : cellsRise size lo ((j, w) :: cs) = true) :
    cellsRise size j ((j, w) :: cs) = true ∧ cellsRise size (j + 1) cs = true := by
  simp only [cellsRise, Bool.and_eq_true, decide_eq_true_eq] at h ⊢
  obtain ⟨⟨-, hj⟩, hrest⟩ := h
  exact ⟨⟨⟨le_rfl, hj⟩, hrest⟩, hrest⟩

/-- The heads of two rising listings that list the same readings agree, and so do their tails. -/
theorem rising_heads_agree {size size' lo lo' i j : Nat} {v w : Word} {cs ds : List (Nat × Word)}
    (h : cellsRise size lo ((i, v) :: cs) = true) (h' : cellsRise size' lo' ((j, w) :: ds) = true)
    (hsame : ∀ k, lookupCell k ((i, v) :: cs) = lookupCell k ((j, w) :: ds)) :
    (i, v) = (j, w) ∧ ∀ k, lookupCell k cs = lookupCell k ds := by
  obtain ⟨hi, hcs⟩ := cellsRise_head h
  obtain ⟨hj, hds⟩ := cellsRise_head h'
  rcases lt_trichotomy i j with hlt | rfl | hlt
  · have hnone := (hsame i).trans (lookup_eq_none_of_lt hj hlt)
    simp [lookupCell] at hnone
  · refine ⟨by simpa [lookupCell] using hsame i, fun k => ?_⟩
    by_cases hk : k = i
    · rw [hk, lookup_eq_none_of_lt hcs (Nat.lt_succ_self i), lookup_eq_none_of_lt hds (Nat.lt_succ_self i)]
    · simpa [lookupCell, hk] using hsame k
  · have hnone := (hsame j).symm.trans (lookup_eq_none_of_lt hi hlt)
    simp [lookupCell] at hnone

theorem rising_ext {size size' lo lo' : Nat} {cs ds : List (Nat × Word)} (h : cellsRise size lo cs = true)
    (h' : cellsRise size' lo' ds = true) (hsame : ∀ k, lookupCell k cs = lookupCell k ds) : cs = ds := by
  induction cs generalizing lo lo' ds with
  | nil =>
    cases ds with
    | nil => rfl
    | cons d ds => simpa [lookupCell] using hsame d.1
  | cons c cs ih =>
    cases ds with
    | nil => simpa [lookupCell] using hsame c.1
    | cons d ds =>
      obtain ⟨hhead, htail⟩ := rising_heads_agree h h' hsame
      rw [ih (cellsRise_head h).2 (cellsRise_head h').2 htail]
      exact congrArg (· :: ds) hhead

/-- In canonical form nothing is listed outside the array. -/
theorem read_eq_ok_of_wf {m : Memory} (hm : m.wf = true) {i : Nat} {v : Word} :
    m.read i = .ok v ↔ lookupCell i m.cells = some v := by
  rw [read_eq_ok]
  exact ⟨And.right, fun hv => ⟨lt_size_of_lookup hm hv, hv⟩⟩

theorem Memory.ext_of_wf {m m' : Memory} (hm : m.wf = true) (hm' : m'.wf = true) (hsize : m.size = m'.size)
    (hread : ∀ i, m.read i = m'.read i) : m = m' := by
  have hlookup : ∀ i, lookupCell i m.cells = lookupCell i m'.cells := fun i =>
    Option.ext fun v => by rw [← read_eq_ok_of_wf hm, ← read_eq_ok_of_wf hm', hread]
  have hcells : m.cells = m'.cells := rising_ext hm hm' hlookup
  cases m
  cases m'
  exact congrArg₂ Memory.mk hsize hcells

/-- Settles O17: the two faults, the canonical form under a write, and its listing determined by the reads. -/
theorem memoryFaultsAndStaysCanonical : Obligations.MemoryFaultsAndStaysCanonical :=
  ⟨fun m i v h => ⟨read_of_size_le h, by simp [Memory.write, Nat.not_lt.2 h]⟩, fun _ _ => read_fresh_of_lt,
    fun _ _ _ _ hm hw => write_keeps_wf hw hm, fun _ _ => Memory.ext_of_wf⟩

end Sys2Proof.Machine
end

section
/-! Readings delivered in order fill the block in order (rules R17 and R37 e): obligation O15. -/

namespace Sys2Proof.Machine

/-! ### What the order says of a state -/

/-- An empty block is in order. -/
theorem blockInOrder_of_empty {s : State} (he : s.rx.edge = 0) (hp : s.rx.phase ≠ .armed) (prev : Option Word) :
    BlockInOrder prev s :=
  ⟨fun i _ _ hi => absurd hi (by omega), fun harmed => absurd harmed hp⟩

/-- The order speaks of the receiver alone. -/
theorem BlockInOrder.congr {prev : Option Word} {s t : State} (h : BlockInOrder prev s) (hrx : t.rx = s.rx) :
    BlockInOrder prev t :=
  ⟨hrx ▸ h.slots_follow, hrx ▸ h.newest⟩

/-- Where no further edge will be recorded, the previous reading no longer matters. -/
theorem BlockInOrder.of_ended {prev prev' : Option Word} {s t : State} (h : BlockInOrder prev s)
    (htimes : t.rx.times = s.rx.times) (hedge : t.rx.edge = s.rx.edge)
    (hended : t.rx.phase = .armed → t.rx.cfg.nedges < t.rx.edge) : BlockInOrder prev' t := by
  refine ⟨?_, fun harmed he => absurd (hended harmed) (Nat.not_lt.2 he)⟩
  rw [htimes, hedge]
  exact h.slots_follow

/-- A reading that follows the previous one goes after the newest. -/
theorem BlockInOrder.stored {prev : Option Word} {s : State} (h : BlockInOrder prev s) (hinv : Inv s)
    (hp : s.rx.phase = .idle ∨ s.rx.phase = .armed) (he : s.rx.edge ≤ s.rx.cfg.nedges) {r : Word} {m : Memory}
    (hw : s.rx.times.write s.rx.edge r = .ok m) (hr : follows r prev = true) :
    BlockInOrder (some r) (s.stored m) := by
  have hnew : m.read s.rx.edge = .ok r := read_write_same hw
  have hold : ∀ i, i < s.rx.edge → m.read i = s.rx.times.read i := fun i hi => read_write_other hw (by omega)
  refine ⟨fun i a b hi ha hb => ?_, fun _ _ a ha => ?_⟩
  · change i + 1 < s.rx.edge + 1 at hi
    change m.read i = .ok a at ha
    change m.read (i + 1) = .ok b at hb
    rw [hold i (by omega)] at ha
    by_cases hlast : i + 1 = s.rx.edge
    · obtain rfl : r = b := by rw [hlast, hnew] at hb; exact Except.ok.inj hb
      have harmed : s.rx.phase = .armed := hp.resolve_left fun hidle => by have := hinv.idle_edge hidle; omega
      rw [← h.newest harmed he a (by rw [← hlast]; exact ha)]
      exact hr
    · rw [hold (i + 1) (by omega)] at hb
      exact h.slots_follow i a b (by omega) ha hb
  · exact congrArg some (Except.ok.inj (hnew.symm.trans ha))

/-! ### Operations -/

/-- Every operation keeps the block in order: an `EDGE` whose reading follows makes it the previous one, any other leaves the
previous reading. -/
theorem Performs.keeps_blockInOrder {i : Instr} {s t : State} {prev prev' : Option Word} (h : Performs i s t)
    (hinv : Inv s) (hb : BlockInOrder prev s) (hother : (∀ r, i ≠ .edge r) → prev' = prev)
    (hedge : ∀ r, i = .edge r → prev' = some r ∧ follows r prev = true) : BlockInOrder prev' t := by
  cases h with
  | refused h =>
    rw [hother (by rintro r rfl; cases h)]
    exact hb.congr rfl
  | ignored h =>
    cases h with
    | edgeDetached hp r => exact hb.of_ended rfl rfl fun harmed => by simp [harmed] at hp
    | edgeFull hp he r => exact hb.of_ended rfl rfl fun _ => he
    | close _ | fire _ | decode _ => rwa [hother nofun]
  | edge hp he hw =>
    obtain ⟨rfl, hr⟩ := hedge _ rfl
    exact hb.stored hinv hp he hw hr
  | rxinit hp b cb args => exact blockInOrder_of_empty rfl (by simp) prev'
  | close hp => exact hb.of_ended rfl rfl (by simp)
  | fire hp => exact hb.of_ended rfl rfl (by simp)
  | decode hp hr => exact blockInOrder_of_empty (by simp [finishDecode_rx]) (by simp [finishDecode_rx]) prev'
  | errfn token => rw [hother nofun]; exact ⟨hb.slots_follow, hb.newest⟩
  | docb => rw [hother nofun]; exact hb.congr (dispatch_rx _ _ _ _ _)
  | txinit _ _ | append _ _ _ _ | tx _ _ _ _ _ | play _ => rw [hother nofun]; exact hb.congr rfl

/-! ### Inputs -/

/-- An input without a reading leaves the previous one. -/
theorem latestReading_of_none {i : Input} (h : i.reading = none) (prev : Option Word) :
    latestReading prev i = prev := by
  simp [latestReading, h]

theorem latestReading_of_some {i : Input} {r : Word} (h : i.reading = some r) (prev : Option Word) :
    latestReading prev i = some r := by
  simp [latestReading, h]

/-- A word that is no `EDGE` carries no reading. -/
theorem reading_word_eq_none {T : Nat} {p : Port} {w : OpWord} {j : Instr} (hd : decodeOn p w = .ok j)
    (hj : ∀ r, j ≠ .edge r) : (Input.word T p w).reading = none := by
  refine Option.eq_none_iff_forall_ne_some.2 fun r hr => ?_
  obtain ⟨_, _, _, ⟨⟩, hd'⟩ := reading_eq_some.1 hr
  exact hj r (Except.ok.inj (hd.symm.trans hd'))

/-- Settles O15: the step resets, or performs an operation, which keeps the block in order; a clock that runs on by less than
half its range has a difference that is not negative. -/
theorem readingsInOrderFillTheBlockInOrder : Obligations.ReadingsInOrderFillTheBlockInOrder := by
  refine ⟨fun s t prev i rest hinv hb hi horder hstep => ?_, blockInOrder_of_empty rfl (by decide) none, fun T d hd => ?_⟩
  · obtain ⟨hfollows, hrest⟩ := readingsInOrder_cons.1 horder
    rcases step_next_cases hstep with ⟨hnil, -⟩ | ⟨i', rest', hi', hcase⟩
    · cases hi.symm.trans hnil
    cases hi.symm.trans hi'
    rcases hcase with ⟨T, -, rfl⟩ | ⟨T, p, w, j, rfl, -, hd, h⟩
    · exact ⟨blockInOrder_of_empty rfl (by simp [Rx.reset]) _, hrest⟩
    · refine ⟨h.keeps_blockInOrder (hinv.taking T rest) (hb.congr rfl) (fun hj => ?_) (fun r hr => ?_), ?_⟩
      · exact latestReading_of_none (reading_word_eq_none hd hj) prev
      · have hreading : (Input.word T p w).reading = some r := reading_eq_some.2 ⟨T, p, w, rfl, hr ▸ hd⟩
        exact ⟨latestReading_of_some hreading prev, hfollows r hreading⟩
      · rw [h.faulted_env.2]
        exact hrest
  · rw [follows_some, tdiff_readingAt_elapsed hd]
    exact Int.natCast_nonneg d

end Sys2Proof.Machine
end

section
/-! What no operation reads (rules R39 and R66): obligations O10 and O59. An answer listed for a state is listed, with the
fields that are not read exchanged, for the state in which they are exchanged. -/

namespace Sys2Proof.Machine

/-! ### What an answer's condition looks at -/

theorem Refused.congr {i : Instr} {r : ConfigReason} {s s' : State} (h : Refused i r s)
    (hp : s'.rx.phase = s.rx.phase) (hc : s'.tx.conf = s.tx.conf) : Refused i r s' := by
  cases h with
  | rxinitAgain hq bits cb args => exact .rxinitAgain (hp ▸ hq) bits cb args
  | rxinitSelector hq hv cb args => exact .rxinitSelector (hp.trans hq) hv cb args
  | txinitAgain hq bits => exact .txinitAgain (hc.trans hq) bits
  | txinitSelector hq hv => exact .txinitSelector (hc.trans hq) hv
  | append hq mark space => exact .append (hc.trans hq) mark space
  | tx hq addr data ext => exact .tx (hc.trans hq) addr data ext
  | play hq => exact .play (hc.trans hq)

/-- The record is looked at only once the receiver has been constructed. -/
theorem Ignored.congr {i : Instr} {s s' : State} (h : Ignored i s) (hp : s'.rx.phase = s.rx.phase)
    (he : s'.rx.edge = s.rx.edge) (hcfg : s.rx.phase ≠ .unconf → s'.rx.cfg = s.rx.cfg) : Ignored i s' := by
  cases h with
  | close hq => exact .close (hp.trans hq)
  | edgeDetached hq r => exact .edgeDetached (hp ▸ hq) r
  | edgeFull hq hn r =>
    exact .edgeFull (hp ▸ hq) (by rw [hcfg (attached_ne hq).1, he]; exact hn) r
  | fire hq => exact .fire (hp ▸ hq)
  | decode hq => exact .decode (hp ▸ hq)

theorem dispatch_of_detached {s : State} (hp : s.rx.phase = .unconf ∨ s.rx.phase = .closed)
    (cmd addr ext thresh : Word) : dispatch cmd addr ext thresh s = s :=
  Host.Outcome.next.inj (exec_docb_of_detached hp cmd addr ext thresh)

/-- A dispatch's state in every phase. -/
theorem dispatch_eq (cmd addr ext thresh : Word) (s : State) :
    dispatch cmd addr ext thresh s = { s with out := { s.out with events := s.out.events ++
      if s.rx.phase = .unconf ∨ s.rx.phase = .closed then [] else dispatchEvents s.rx cmd addr ext thresh } } := by
  cases hp : s.rx.phase with
  | unconf => rw [dispatch_of_detached (.inl hp)]; simp
  | closed => rw [dispatch_of_detached (.inr hp)]; simp
  | idle => rw [dispatch_of_attached (.inl hp)]; simp
  | armed => rw [dispatch_of_attached (.inr (.inl hp))]; simp
  | fired => rw [dispatch_of_attached (.inr (.inr hp))]; simp

/-! ### The deadline -/

theorem dispatch_setDeadline (cmd addr ext thresh : Word) (s : State) (d : Nat) :
    dispatch cmd addr ext thresh (s.setDeadline d) = (dispatch cmd addr ext thresh s).setDeadline d := by
  rw [dispatch_eq, dispatch_eq]
  rfl

/-- The first edge writes the deadline, and no operation reads it. -/
theorem Performs.setDeadline {i : Instr} {s t : State} (h : Performs i s t) (d : Nat) :
    ∃ d', (d' = d ∨ d' = t.rx.deadline) ∧ Performs i (s.setDeadline d) (t.setDeadline d') := by
  cases h with
  | refused h => exact ⟨d, .inl rfl, .refused (s := s.setDeadline d) (h.congr rfl rfl)⟩
  | ignored h => exact ⟨d, .inl rfl, .ignored (h.congr rfl rfl fun _ => rfl)⟩
  | rxinit hp b cb args => exact ⟨d, .inl rfl, .rxinit (s := s.setDeadline d) hp b cb args⟩
  | errfn token => exact ⟨d, .inl rfl, .errfn token (s.setDeadline d)⟩
  | close hp => exact ⟨d, .inl rfl, .close (s := s.setDeadline d) hp⟩
  | txinit hc b => exact ⟨d, .inl rfl, .txinit (s := s.setDeadline d) hc b⟩
  | append hc hroom mark space => exact ⟨d, .inl rfl, .append (s := s.setDeadline d) hc hroom mark space⟩
  | tx hc hroom addr data ext => exact ⟨d, .inl rfl, .tx (s := s.setDeadline d) hc hroom addr data ext⟩
  | play hc => exact ⟨d, .inl rfl, .play (s := s.setDeadline d) hc⟩
  | @edge _ r m hp he hw =>
    have hedge : Performs (.edge r) (s.setDeadline d) ((s.setDeadline d).stored m) := .edge hp he hw
    by_cases h0 : s.rx.edge = 0
    · refine ⟨(s.stored m).rx.deadline, .inr rfl, ?_⟩
      rwa [show (s.stored m).setDeadline (s.stored m).rx.deadline = (s.setDeadline d).stored m by
        simp [State.stored, State.setDeadline, h0]]
    · refine ⟨d, .inl rfl, ?_⟩
      rwa [show (s.stored m).setDeadline d = (s.setDeadline d).stored m by
        simp [State.stored, State.setDeadline, h0]]
  | fire hp => exact ⟨d, .inl rfl, .fire (s := s.setDeadline d) hp⟩
  | @decode _ r hp hr =>
    have hdecode : Performs .decode (s.setDeadline d) (finishDecode r (s.setDeadline d)) := .decode hp hr
    rw [finishDecode_eq] at hdecode
    exact ⟨d, .inl rfl, by rw [finishDecode_eq]; exact hdecode⟩
  | docb cmd addr ext thresh =>
    exact ⟨d, .inl rfl, dispatch_setDeadline cmd addr ext thresh s d ▸ .docb cmd addr ext thresh (s.setDeadline d)⟩

theorem Faults.setDeadline {i : Instr} {s : State} {f : Fault} (h : Faults i s f) (d : Nat) :
    Faults i (s.setDeadline d) f := by
  cases h with
  | race hp r => exact .race (s := s.setDeadline d) hp r
  | edgeOutside hp he hsize r => exact .edgeOutside (s := s.setDeadline d) hp he hsize r
  | append hc hfull mark space => exact .append (s := s.setDeadline d) hc hfull mark space
  | tx hc hcap hlt addr data ext => exact .tx (s := s.setDeadline d) hc hcap hlt addr data ext
  | decode hp hr => exact .decode (s := s.setDeadline d) hp hr

/-! ### The receiver before it is constructed -/

/-- The state with another record, callback and arguments of the receiver. -/
def State.withRxConfig (s : State) (c : Cfg) (cb args : Word) : State :=
  s.withRx { s.rx with cfg := c, cb := cb, args := args }

/-- In UNCONF the receiver's configuration is read by none, and a construction writes all of it. -/
theorem Performs.withRxConfig {i : Instr} {s t : State} (h : Performs i s t) (hp : s.rx.phase = .unconf) (c : Cfg)
    (cb args : Word) :
    (t.rx.phase = .unconf ∧ Performs i (s.withRxConfig c cb args) (t.withRxConfig c cb args)) ∨
      (t.rx.phase = .idle ∧ (∃ b x y, i = .rxinit b x y) ∧ Performs i (s.withRxConfig c cb args) t) := by
  cases h with
  | refused h => exact .inl ⟨hp, .refused (s := s.withRxConfig c cb args) (h.congr rfl rfl)⟩
  | ignored h => exact .inl ⟨hp, .ignored (h.congr rfl rfl fun hconf => absurd hp hconf)⟩
  | rxinit _ b x y => exact .inr ⟨rfl, ⟨_, x, y, rfl⟩, .rxinit (s := s.withRxConfig c cb args) hp b x y⟩
  | errfn token => exact .inl ⟨hp, .errfn token (s.withRxConfig c cb args)⟩
  | txinit hc b => exact .inl ⟨hp, .txinit (s := s.withRxConfig c cb args) hc b⟩
  | append hc hroom mark space => exact .inl ⟨hp, .append (s := s.withRxConfig c cb args) hc hroom mark space⟩
  | tx hc hroom addr data ext => exact .inl ⟨hp, .tx (s := s.withRxConfig c cb args) hc hroom addr data ext⟩
  | play hc => exact .inl ⟨hp, .play (s := s.withRxConfig c cb args) hc⟩
  | docb cmd addr ext thresh =>
    have hdocb := Performs.docb cmd addr ext thresh (s.withRxConfig c cb args)
    rw [dispatch_of_detached (s := s.withRxConfig c cb args) (.inl hp)] at hdocb
    rw [dispatch_of_detached (.inl hp)]
    exact .inl ⟨hp, hdocb⟩
  | close hconf => exact absurd hp hconf
  | edge hattached => exact absurd hp (attached_ne hattached).1
  | fire hwaiting => exact absurd hp (attached_ne hwaiting.symm).1
  | decode hfired => cases hp.symm.trans hfired

theorem Faults.withRxConfig {i : Instr} {s : State} {f : Fault} (h : Faults i s f) (hp : s.rx.phase = .unconf)
    (c : Cfg) (cb args : Word) : Faults i (s.withRxConfig c cb args) f := by
  cases h with
  | append hc hfull mark space => exact .append (s := s.withRxConfig c cb args) hc hfull mark space
  | tx hc hcap hlt addr data ext => exact .tx (s := s.withRxConfig c cb args) hc hcap hlt addr data ext
  | race hfired => cases hp.symm.trans hfired
  | edgeOutside hattached => exact absurd hp (attached_ne hattached).1
  | decode hfired => cases hp.symm.trans hfired

/-! ### The transmitter before it is constructed -/

/-- The state with another record, frequency and gap of the transmitter. -/
def State.withTxConfig (s : State) (c : Cfg) (f g : Word) : State :=
  s.withTx { s.tx with cfg := c, freq := f, gap := g }

/-- Before `TXINIT` a transmit operation is refused or constructs the transmitter, which writes all of its configuration. -/
theorem Performs.transmit_withTxConfig {i : Instr} {s t : State} (h : Performs i s t) (hi : isReceive i = false)
    (hc : s.tx.conf = false) (c : Cfg) (f g : Word) :
    (t.tx.conf = false ∧ Performs i (s.withTxConfig c f g) (t.withTxConfig c f g)) ∨
      (t.tx.conf = true ∧ (∃ b, i = .txinit b) ∧ Performs i (s.withTxConfig c f g) t) := by
  cases h with
  | refused h => exact .inl ⟨hc, .refused (s := s.withTxConfig c f g) (h.congr rfl rfl)⟩
  | txinit _ b => exact .inr ⟨rfl, ⟨_, rfl⟩, .txinit (s := s.withTxConfig c f g) hc b⟩
  | ignored h => cases h <;> cases hi
  | append hconf | tx hconf | play hconf => cases hc.symm.trans hconf
  | rxinit | errfn | close | edge | fire | decode | docb => cases hi

/-- A receive operation reads nothing of the transmitter (rule R21). -/
theorem exec_receive_withTxConfig {i : Instr} (hi : isReceive i = true) {s t : State} (h : exec i s = .next t)
    (c : Cfg) (f g : Word) : exec i (s.withTxConfig c f g) = .next (t.withTxConfig c f g) := by
  refine (exec_withTx hi s _).trans ((congrArg (mapNext _) h).trans ?_)
  rw [mapNext_next, State.withTxConfig, exec_receive_tx hi h]

theorem exec_withTxConfig {i : Instr} {s t : State} (h : exec i s = .next t) (hc : s.tx.conf = false) (c : Cfg)
    (f g : Word) :
    (t.tx.conf = false ∧ exec i (s.withTxConfig c f g) = .next (t.withTxConfig c f g)) ∨
      (t.tx.conf = true ∧ (∃ b, i = .txinit b) ∧ exec i (s.withTxConfig c f g) = .next t) := by
  cases hi : isReceive i with
  | true => exact .inl ⟨by rw [exec_receive_tx hi h, hc], exec_receive_withTxConfig hi h c f g⟩
  | false =>
    simp only [exec_eq_next]
    exact (exec_eq_next.1 h).transmit_withTxConfig hi hc c f g

theorem exec_withTxConfig_fault {i : Instr} {s : State} {e : Fault} (h : exec i s = .fault e)
    (hc : s.tx.conf = false) (c : Cfg) (f g : Word) : exec i (s.withTxConfig c f g) = .fault e := by
  cases hi : isReceive i with
  | true => exact (exec_withTx hi s _).trans (congrArg (mapNext _) h)
  | false =>
    cases exec_eq_fault.1 h with
    | append hconf | tx hconf => cases hc.symm.trans hconf
    | race | edgeOutside | decode => cases hi

/-- Settles O10: the deadline, the receiver's configuration and the transmitter's, each exchanged in the answers listed. -/
theorem unspecifiedFieldsAreNeverReadTooEarly : Obligations.UnspecifiedFieldsAreNeverReadTooEarly := by
  refine ⟨fun i s d => ⟨fun t h => ?_, fun f h => ?_⟩, fun i s c cb args hp => ⟨fun t h => ?_, fun f h => ?_⟩,
    fun i s c f g hc => ⟨fun t h => exec_withTxConfig h hc c f g, fun e h => exec_withTxConfig_fault h hc c f g⟩⟩
  · obtain ⟨d', hd', hperf⟩ := (exec_eq_next.1 h).setDeadline d
    exact ⟨d', hd', exec_of_performs hperf⟩
  · exact exec_of_faults ((exec_eq_fault.1 h).setDeadline d)
  · exact ((exec_eq_next.1 h).withRxConfig hp c cb args).imp (And.imp_right exec_of_performs)
      (And.imp_right (And.imp_right exec_of_performs))
  · exact exec_of_faults ((exec_eq_fault.1 h).withRxConfig hp c cb args)

/-! ### The readings at or above the counter -/

/-- Settles O59: in FIRED the routine reads slots below the counter only; elsewhere `DECODE` reads nothing. -/
theorem staleReadingsAreUnobservable : Obligations.StaleReadingsAreUnobservable := by
  intro s m hinv hsame t h
  cases exec_eq_next.1 h with
  | refused hrefused => cases hrefused
  | ignored hignored => exact exec_of_ignored (s := s.setTimes m) (hignored.congr rfl rfl fun _ => rfl)
  | @decode _ r hp hr =>
    have hr' : runDecode s.rx.cfg m s.rx.edge = .ok r := by
      rw [← hr, hinv.rx_cfg]
      exact runDecode_congr _ _ fun i hi j hj => slotDiff_congr (hsame i hi) (hsame j hj)
    have hdecode : exec .decode (s.setTimes m) = .next (finishDecode r (s.setTimes m)) :=
      exec_decode_of_runDecode hp hr'
    rw [finishDecode_eq] at hdecode
    rw [finishDecode_eq]
    exact hdecode

end Sys2Proof.Machine
end

section
/-! A receiver that is closed, and an edge beside an expiry (rules R105 and R179): obligations O24 and O26. -/

namespace Sys2Proof.Machine

/-! ### After CLOSE -/

/-- Between `s` and `t` no trace is left but the handler token and returned errors. -/
structure SilentFrom (s t : State) : Prop where
  rx : t.rx = { s.rx with errh := t.rx.errh }
  events : t.out.events = s.out.events
  tx : t.tx = s.tx
  faulted : t.faulted = s.faulted
  env : t.env = s.env

theorem SilentFrom.refl (s : State) : SilentFrom s s := ⟨rfl, rfl, rfl, rfl, rfl⟩

theorem SilentFrom.trans {s t u : State} (h : SilentFrom s t) (h' : SilentFrom t u) : SilentFrom s u where
  rx := h'.rx.trans (by rw [h.rx])
  events := h'.events.trans h.events
  tx := h'.tx.trans h.tx
  faulted := h'.faulted.trans h.faulted
  env := h'.env.trans h.env

theorem SilentFrom.phase {s t : State} (h : SilentFrom s t) : t.rx.phase = s.rx.phase := by rw [h.rx]

theorem exec_receive_of_closed {i : Instr} {s : State} (hi : isReceive i = true) (hp : s.rx.phase = .closed) :
    ∃ t, exec i s = .next t ∧ SilentFrom s t := by
  have hconf : s.rx.phase ≠ .unconf := by simp [hp]
  cases i with
  | rxinit bits cb args => exact ⟨_, exec_rxinit_of_constructed hconf bits cb args, ⟨rfl, rfl, rfl, rfl, rfl⟩⟩
  | errfn token => exact ⟨_, exec_errfn token s, ⟨rfl, rfl, rfl, rfl, rfl⟩⟩
  | close => exact ⟨_, exec_close_of_constructed hconf, ⟨by simp [State.setPhase, ← hp], rfl, rfl, rfl, rfl⟩⟩
  | edge r => exact ⟨s, exec_edge_of_detached (.inr hp) r, .refl s⟩
  | fire => exact ⟨s, exec_fire_of_not_waiting (.inr (.inr hp)), .refl s⟩
  | decode => exact ⟨s, exec_decode_of_not_fired (by simp [hp]), .refl s⟩
  | docb cmd addr ext thresh => exact ⟨s, exec_docb_of_detached (.inr hp) cmd addr ext thresh, .refl s⟩
  | txinit _ | append _ _ | tx _ _ _ | play => cases hi

theorem execAll_receive_of_closed {ops : List Instr} {s : State} (hops : ∀ i ∈ ops, isReceive i = true)
    (hp : s.rx.phase = .closed) : ∃ t, execAll ops s = .next t ∧ SilentFrom s t := by
  induction ops generalizing s with
  | nil => exact ⟨s, rfl, .refl s⟩
  | cons i is ih =>
    obtain ⟨hi, his⟩ := List.forall_mem_cons.1 hops
    obtain ⟨t, ht, hst⟩ := exec_receive_of_closed hi hp
    obtain ⟨u, hu, htu⟩ := ih his (hst.phase.trans hp)
    exact ⟨u, (execAll_cons ht is).trans hu, hst.trans htu⟩

/-- Settles O24: by induction on the operations; each is silent and leaves the receiver CLOSED. -/
theorem afterCloseOnlySilence : Obligations.AfterCloseOnlySilence := by
  intro ops s hp hops
  obtain ⟨t, ht, hsilent⟩ := execAll_receive_of_closed hops hp
  exact ⟨t, ht, hsilent.rx, hsilent.events, hsilent.tx, hsilent.faulted, hsilent.env⟩

/-! ### An edge beside an expiry -/

/-- Settles O26: the edge that comes first is recorded and the expiry keeps it; the expiry that comes first leads to FIRED,
where an edge races. -/
theorem edgeAndExpiryInEitherOrder : Obligations.EdgeAndExpiryInEitherOrder := by
  intro r s hinv hp he
  have hroom : s.rx.edge < s.rx.times.size := by
    rw [hinv.times_size (by simp [hp])]
    omega
  obtain ⟨m, hw⟩ : ∃ m, s.rx.times.write s.rx.edge r = .ok m := ⟨_, write_of_lt hroom r⟩
  have hedge := exec_edge_of_room (.inr hp) hinv.idle_edge he hw
  constructor
  · have hfire := exec_fire_of_waiting (s := s.recorded m) (.inl rfl)
    exact ⟨_, (execAll_cons hedge _).trans (execAll_cons hfire []), rfl, rfl, read_write_same hw⟩
  · rw [execAll_cons (exec_fire_of_waiting (.inl hp)), execAll, exec_edge_of_fired rfl]

end Sys2Proof.Machine
end

section
/-! What the decode routine's answer is not (rules R13, R127 and R135): obligations O32, O36 and O43. -/

namespace Sys2Proof.Machine

/-- Settles O32: the collected value has the variant's width, and such a value passes the range check. -/
theorem capturedEdgesNeverFailTheFieldChecks : Obligations.CapturedEdgesNeverFailTheFieldChecks := by
  intro p b m n k h
  rcases runDecode_cases h with ⟨-, hk⟩ | ⟨-, hk⟩ | ⟨-, hk | ⟨v, hv, hk⟩⟩
  · cases hk; decide
  · cases hk; decide
  · cases hk; decide
  · rw [proto_bits] at hv hk
    obtain ⟨c, a, e, hvalid⟩ := unpack_of_lt (collectBits_lt ((bits_le b).trans (by decide)) hv)
    cases hk.trans hvalid

/-- The clock's origin cancels out of a time difference. -/
theorem tdiff_readingAt_shift (x y c : Nat) :
    tdiff (readingAt (x + c)) (readingAt (y + c)) = tdiff (readingAt x) (readingAt y) := by
  simp only [tdiff_eq, readingAt_toInt]
  omega

/-- Settles O36: the routine reads time differences only. -/
theorem clockOriginDoesNotMatter : Obligations.ClockOriginDoesNotMatter := by
  intro p b m m' n c e hm hm'
  refine runDecode_congr p b fun i hi j hj => ?_
  rw [slotDiff_of_reads (hm i hi) (hm j hj), slotDiff_of_reads (hm' i hi) (hm' j hj), tdiff_readingAt_shift]

/-- A valid triple's command is not negative, so it reaches the threshold 0 of the records. -/
theorem valid_cmd_nonneg {p : Params} {b : Variant} {m : Memory} {n : Nat} {c a e : Word}
    (h : runDecode (proto p b) m n = .ok (.valid c a e)) : 0 ≤ c.toInt := by
  rcases allowed_of_runDecode h with ⟨c', a', e', hr, hc, -⟩ | ⟨k, hr, -⟩
  · cases hr
    exact hc
  · cases hr

/-- A valid triple goes to the callback (rule R135). -/
theorem finishDecode_valid_events {s : State} {c a e : Word} (hc : c.toInt ≥ s.rx.cfg.thresh.toInt) :
    (finishDecode (.valid c a e) s).out.events = s.out.events ++ [.cb s.rx.cb c a e s.rx.args] := by
  rw [finishDecode_eq]
  exact congrArg _ (dispatchEvents_of_ge hc s.rx a e)

/-- Settles O43: the routine answers; a triple's command is at least the threshold, and a code is below it. -/
theorem decodeSendsTriplesToCallbackAndCodesToHandler : Obligations.DecodeSendsTriplesToCallbackAndCodesToHandler := by
  intro s hinv hp
  have hthresh : s.rx.cfg.thresh = 0 := by rw [hinv.rx_cfg, proto_thresh]
  obtain ⟨r, hr⟩ := hinv.runDecode_ok hp
  refine ⟨_, exec_decode_of_runDecode hp hr, ?_⟩
  cases r with
  | valid c a e =>
    have hnonneg : 0 ≤ c.toInt := valid_cmd_nonneg (hinv.rx_cfg ▸ hr)
    exact .inl ⟨c, a, e, hr, finishDecode_valid_events (by rw [hthresh]; exact hnonneg)⟩
  | error k => exact .inr ⟨k, hr, finishDecode_error_events k hthresh⟩

end Sys2Proof.Machine
end

section
/-! Encoded trains (rules R84, R86 and R163) and the frame timeout (rules R9, R210 and R213): obligations O50, O51 and O52. The
pairs and the edges of a train grow by one pair and two edges at its end, bit by bit. -/

namespace Sys2Proof.Machine

/-! ### Pairs and edges, from the end -/

theorem bitPairs_succ (v : Word) (k n : Nat) :
    bitPairs v k (n + 1) = bitPairs v k n ++ [bitPair (v.getLsbD (k + n))] := by
  induction n generalizing k with
  | zero => rfl
  | succ n ih =>
    rw [bitPairs, ih (k + 1), bitPairs, List.cons_append, show k + 1 + n = k + (n + 1) by omega]

@[simp] theorem bitPair_space (bit : Bool) : (bitPair bit).space = 600 := by cases bit <;> rfl

theorem bitPair_mark_toNat (bit : Bool) : (bitPair bit).mark.toNat = if bit then 1200 else 600 := by cases bit <;> rfl

theorem trainLength_append (ps qs : List Pair) : trainLength (ps ++ qs) = trainLength ps + trainLength qs := by
  simp [trainLength]

theorem trainLength_cons (p : Pair) (ps : List Pair) :
    trainLength (p :: ps) = p.mark.toNat + p.space.toNat + trainLength ps := by
  simp [trainLength]

theorem edgesOf_append_singleton (t0 : Nat) (ps : List Pair) (q : Pair) :
    edgesOf t0 (ps ++ [q]) =
      edgesOf t0 ps ++ [t0 + trainLength ps, t0 + trainLength ps + q.mark.toNat] := by
  induction ps generalizing t0 with
  | nil => rfl
  | cons p ps ih =>
    have hstart : t0 + p.mark.toNat + p.space.toNat + trainLength ps = t0 + trainLength (p :: ps) := by
      rw [trainLength_cons]
      omega
    rw [List.cons_append, edgesOf, ih, hstart, edgesOf, List.cons_append, List.cons_append]

/-! ### Durations (rule R163) -/

theorem ones_succ (v : Word) (n : Nat) : ones v (n + 1) = ones v n + if v.getLsbD n then 1 else 0 := by
  cases hbit : v.getLsbD n <;> simp [ones, List.range_succ, List.filter_append, hbit]

theorem ones_le (v : Word) (n : Nat) : ones v n ≤ n :=
  (List.length_filter_le _ _).trans_eq List.length_range

theorem trainLength_bitPairs (v : Word) (n : Nat) : trainLength (bitPairs v 0 n) = 1200 * n + 600 * ones v n := by
  induction n with
  | zero => rfl
  | succ n ih =>
    rw [bitPairs_succ, trainLength_append, ih, ones_succ, Nat.zero_add]
    cases hbit : v.getLsbD n <;> simp [trainLength, bitPair, Config.mark0, Config.mark1, Config.bitSpace] <;> omega

theorem trainLength_trainOf (b : Variant) (v : Word) :
    trainLength (trainOf b v) = 3000 + 1200 * b.bits + 600 * ones v b.bits := by
  rw [trainOf, trainLength_cons, trainLength_bitPairs, show leadPair.mark.toNat + leadPair.space.toNat = 3000 from rfl]
  omega

/-- A train ends with the pair of its last data bit. -/
theorem trainOf_eq_append (b : Variant) (v : Word) :
    ∃ ps bit, trainOf b v = ps ++ [bitPair bit] := by
  obtain ⟨n, hn⟩ : ∃ n, b.bits = n + 1 := Nat.exists_eq_add_one.2 (by have := bits_ge b; omega)
  exact ⟨leadPair :: bitPairs v 0 n, v.getLsbD (0 + n), by rw [trainOf, hn, bitPairs_succ]; rfl⟩

/-- The last edge ends the last mark; the last space is ended by none. -/
theorem edgesOf_trainOf_getLast? (b : Variant) (v : Word) (t0 : Nat) :
    (edgesOf t0 (trainOf b v)).getLast? = some (t0 + trainLength (trainOf b v) - 600) := by
  obtain ⟨ps, bit, htrain⟩ := trainOf_eq_append b v
  have hend : trainLength [bitPair bit] = (bitPair bit).mark.toNat + 600 := by
    rw [trainLength_cons, bitPair_space]
    rfl
  rw [htrain, edgesOf_append_singleton, trainLength_append, hend, List.getLast?_append]
  simp only [List.getLast?_cons_cons, List.getLast?_singleton, Option.some_or, Option.some.injEq]
  omega

theorem trainOf_space {b : Variant} {v : Word} {q : Pair} (h : q ∈ trainOf b v) : q.space = 600 := by
  rcases List.mem_cons.1 h with rfl | hbit
  · rfl
  · exact (bitPairs_mem hbit).1

/-- Settles O50: the shape pair by pair, and the durations from the last edge back. -/
theorem encodedTrainHasTheDocumentedShape : Obligations.EncodedTrainHasTheDocumentedShape := by
  refine fun b v t0 => ⟨trainOf_length b v, fun q => trainOf_space,
    ⟨leadPair, bitPairs v 0 b.bits, rfl, rfl, fun d hd => (bitPairs_mem hd).2⟩, ?_, trainLength_trainOf b v, rfl,
    edgesOf_trainOf_getLast? b v t0⟩
  rw [edgesOf_length, trainOf_length]
  omega

/-! ### The longest block (rule R213) -/

/-- The edges of a train whose spaces are 600 lie between its start and its end, the last space aside. -/
theorem edgesOf_bounds {ps : List Pair} (hspace : ∀ q ∈ ps, q.space = 600) {t0 e : Nat} (he : e ∈ edgesOf t0 ps) :
    t0 ≤ e ∧ e + 600 ≤ t0 + trainLength ps := by
  induction ps generalizing t0 with
  | nil => cases he
  | cons p ps ih =>
    obtain ⟨hp, hps⟩ := List.forall_mem_cons.1 hspace
    have hp' : p.space.toNat = 600 := by rw [hp]; rfl
    rw [trainLength_cons, hp']
    rw [edgesOf, List.mem_cons, List.mem_cons] at he
    rcases he with rfl | rfl | he
    · omega
    · omega
    · have := ih hps he
      omega

theorem edgesOf_trainOf_bounds {b : Variant} {v : Word} {t0 e : Nat} (he : e ∈ edgesOf t0 (trainOf b v)) :
    t0 ≤ e ∧ e ≤ t0 + worstBlock b := by
  have hbounds := edgesOf_bounds (fun _ => trainOf_space) he
  have hones := ones_le v b.bits
  rw [trainLength_trainOf] at hbounds
  rw [worstBlock]
  omega

theorem ones_allOnes (b : Variant) : ones 0xFFFFFFFF b.bits = b.bits := by cases b <;> decide

theorem worstBlock_reached (b : Variant) (t0 : Nat) : t0 + worstBlock b ∈ edgesOf t0 (trainOf b 0xFFFFFFFF) := by
  refine List.mem_of_getLast? ((edgesOf_trainOf_getLast? b _ t0).trans (congrArg some ?_))
  rw [trainLength_trainOf, ones_allOnes, worstBlock]
  omega

/-! ### The constraints on the timeout (rules R9 and R210) -/

theorem proto_tblock (p : Params) (b : Variant) : (proto p b).tblock = (p.of b).tblock := by cases b <;> rfl

theorem variantParamsOk_iff {link : LinkTiming} {jitter : Nat} {b : Variant} {p : VariantParams} :
    variantParamsOk link jitter b p = true ↔
      frameTimeoutOk link jitter b p.tblock = true ∧ 0 < p.freq.toInt ∧ p.tblock + jitter < 2 ^ 29 := by
  rw [variantParamsOk, Bool.and_eq_true, Bool.and_eq_true, decide_eq_true_iff, decide_eq_true_iff, and_assoc]
  exact Iff.rfl

theorem paramsOk_iff {link : Variant → LinkTiming} {p : Params} :
    paramsOk link p = true ↔
      (∀ b, variantParamsOk (link b) p.jitter b (p.of b) = true) ∧ ∀ cap, p.ptCap = some cap → 21 ≤ cap := by
  have hall : ∀ f : Variant → Bool, ([.b12, .b15, .b20] : List Variant).all f = true ↔ ∀ b, f b = true := fun f =>
    List.all_eq_true.trans ⟨fun h b => h b (by cases b <;> decide), fun h b _ => h b⟩
  rw [paramsOk, Bool.and_eq_true, hall]
  cases p.ptCap <;> simp

/-- The bounds on a timeout under parameters that meet the constraints. -/
theorem tblock_bounds {link : Variant → LinkTiming} {p : Params} (h : paramsOk link p = true) (b : Variant) :
    worstBlock b < (proto p b).tblock ∧
      (proto p b).tblock + p.jitter + (link b).decodeTime < (link b).nextBlock ∧
      (proto p b).tblock < (link b).repeatGap := by
  rw [proto_tblock]
  exact frameTimeoutOk_iff.1 (variantParamsOk_iff.1 ((paramsOk_iff.1 h).1 b)).1

theorem default_tblock_gt (b : Variant) : worstBlock b < (Params.default.of b).tblock := by cases b <;> decide

theorem default_freq_pos (b : Variant) : 0 < (Params.default.of b).freq.toInt := by cases b <;> decide

/-- The default parameters of rule R9, with any bound of lateness, meet the constraints of a link that leaves room. -/
theorem default_paramsOk {link : Variant → LinkTiming} {lateness : Nat}
    (hrepeat : ∀ b, (proto Params.default b).tblock < (link b).repeatGap)
    (hnext : ∀ b, (proto Params.default b).tblock + lateness + (link b).decodeTime < (link b).nextBlock)
    (hclock : ∀ b, (proto Params.default b).tblock + lateness < 2 ^ 29) :
    paramsOk link { Params.default with jitter := lateness } = true := by
  simp only [proto_tblock] at hrepeat hnext hclock
  refine paramsOk_iff.2 ⟨fun b => variantParamsOk_iff.2 ⟨frameTimeoutOk_iff.2 ?_, default_freq_pos b, hclock b⟩, nofun⟩
  exact ⟨default_tblock_gt b, hnext b, hrepeat b⟩

/-- Settles O51: the edges' bound and its witness, and the constraints read both ways. -/
theorem timeoutExceedsTheWorstBlock : Obligations.TimeoutExceedsTheWorstBlock := by
  refine ⟨fun b v t0 e he => ?_, fun b t0 => ?_, fun link p b h => ?_, fun link lateness => default_paramsOk⟩
  · rw [Nat.add_assoc]
    exact edgesOf_trainOf_bounds he
  · rw [Nat.add_assoc]
    exact worstBlock_reached b t0
  · obtain ⟨hworst, hnext, hrepeat⟩ := tblock_bounds h b
    exact ⟨hworst, hrepeat, hnext⟩

/-- Settles O52: the first edge sets the deadline one timeout later, and the timeout meets its bounds. -/
theorem frameTimeoutKeepsBlocksApart : Obligations.FrameTimeoutKeepsBlocksApart := by
  intro link s r hinv hp hparams
  have hedge := hinv.idle_edge hp
  have hroom : s.rx.edge < s.rx.times.size := by
    rw [hinv.times_size (by simp [hp])]
    omega
  obtain ⟨m, hw⟩ : ∃ m, s.rx.times.write s.rx.edge r = .ok m := ⟨_, write_of_lt hroom r⟩
  have hdeadline : (s.recorded m).rx.deadline = s.env.now + (proto s.env.params s.rx.cfg.bits).tblock := by
    rw [← hinv.rx_cfg]
    exact if_pos hedge
  obtain ⟨hworst, hnext, hrepeat⟩ := tblock_bounds hparams s.rx.cfg.bits
  refine ⟨s.recorded m, exec_edge_of_room (.inl hp) hinv.idle_edge (by omega) hw, ?_⟩
  rw [hdeadline]
  refine ⟨fun v e he => ?_, by omega, fun fire done next hfire hdone hnextBlock => by omega⟩
  have hlast := (edgesOf_trainOf_bounds he).2
  omega

end Sys2Proof.Machine
end

section
/-! The round trip of a command through its train (rules R129 and R130): obligations O37, O38 and O39. The exact conditions on
latencies come first; those of the two other statements imply them. -/

namespace Sys2Proof.Machine

/-! ### The packed value and its fields -/

theorem pack_lt (b : Variant) (addr data ext : Word) : (pack b addr data ext).toNat < 2 ^ b.bits := by
  cases b with
  | b12 => rw [pack_b12_toNat, Variant.bits]; omega
  | b15 => rw [pack_b15_toNat, Variant.bits]; omega
  | b20 => rw [pack_b20_toNat, Variant.bits]; omega

theorem ofNat_eq_of_toNat {x : Word} {n : Nat} (h : n = x.toNat) : BitVec.ofNat 32 n = x := by
  rw [h, BitVec.ofNat_toNat, BitVec.setWidth_eq]

theorem ofNat_inj_of_lt {x y : Nat} (hx : x < 2 ^ 32) (hy : y < 2 ^ 32)
    (h : BitVec.ofNat 32 x = BitVec.ofNat 32 y) : x = y := by
  have hnat := congrArg BitVec.toNat h
  rwa [BitVec.toNat_ofNat, BitVec.toNat_ofNat, Nat.mod_eq_of_lt hx, Nat.mod_eq_of_lt hy] at hnat

/-- Fields in range come back from the packed value. -/
theorem unpack_pack {b : Variant} {addr data ext : Word} (h : fieldsInRange b addr data ext = true) :
    unpack b (pack b addr data ext) = .valid data addr ext := by
  cases b with
  | b12 | b15 =>
    simp only [fieldsInRange, Bool.and_eq_true, decide_eq_true_eq, beq_iff_eq] at h
    obtain ⟨⟨hdata, haddr⟩, rfl⟩ := h
    simp only [unpack_b12_eq, pack_b12_toNat, unpack_b15_eq, pack_b15_toNat]
    rw [if_neg (by omega), ofNat_eq_of_toNat (x := data) (by omega), ofNat_eq_of_toNat (x := addr) (by omega)]
  | b20 =>
    simp only [fieldsInRange, Bool.and_eq_true, decide_eq_true_eq] at h
    obtain ⟨⟨hdata, haddr⟩, hext⟩ := h
    rw [unpack_b20_eq, pack_b20_toNat, if_neg (by omega), ofNat_eq_of_toNat (x := data) (by omega),
      ofNat_eq_of_toNat (x := addr) (by omega), ofNat_eq_of_toNat (x := ext) (by omega)]

/-- No two values of the variant's width have the same fields. -/
theorem unpack_injective {b : Variant} {v w : Word} (hv : v.toNat < 2 ^ b.bits) (hw : w.toNat < 2 ^ b.bits)
    (h : unpack b v = unpack b w) : v = w := by
  apply BitVec.eq_of_toNat_eq
  cases b with
  | b12 | b15 =>
    rw [Variant.bits] at hv hw
    simp only [unpack_b12_eq, unpack_b15_eq] at h
    rw [if_neg (by omega), if_neg (by omega), DecodeResult.valid.injEq] at h
    obtain ⟨hcmd, haddr, -⟩ := h
    have hlow := ofNat_inj_of_lt (by omega) (by omega) hcmd
    have hhigh := ofNat_inj_of_lt (by omega) (by omega) haddr
    omega
  | b20 =>
    rw [Variant.bits] at hv hw
    rw [unpack_b20_eq, unpack_b20_eq, if_neg (by omega), if_neg (by omega), DecodeResult.valid.injEq] at h
    obtain ⟨hcmd, haddr, hext⟩ := h
    have hlow := ofNat_inj_of_lt (by omega) (by omega) hcmd
    have hmid := ofNat_inj_of_lt (by omega) (by omega) haddr
    have hhigh := ofNat_inj_of_lt (by omega) (by omega) hext
    omega

/-- A value of `n` bits holds the data bits of the readings when each of its bits is the test on that bit's mark. -/
theorem holdsDataBits_of_lt {r : Nat → Word} {n : Nat} {v : Word} (hv : v.toNat < 2 ^ n)
    (h : ∀ k < n, tdiff (r (3 + 2 * k)) (r (2 + 2 * k)) > 900 ↔ v.getLsbD k = true) : HoldsDataBits r n v := by
  intro k
  by_cases hk : k < n
  · rw [decide_eq_true hk, Bool.true_and]
    exact Bool.eq_iff_iff.2 ((h k hk).symm.trans decide_eq_true_iff.symm)
  · rw [decide_eq_false hk, Bool.false_and]
    exact Nat.testBit_lt_two_pow (hv.trans_le (Nat.pow_le_pow_right (by decide) (Nat.not_lt.1 hk)))

/-- A readable block decodes to the fields exactly when its lead-in is good and its marks spell their packed value. -/
theorem runDecode_eq_fields_iff (p : Params) {b : Variant} {addr data ext : Word}
    (hfields : fieldsInRange b addr data ext = true) {m : Memory} {r : Nat → Word}
    (hr : ∀ i < 2 + 2 * b.bits, m.read i = .ok (r i)) :
    runDecode (proto p b) m (2 + 2 * b.bits) = .ok (.valid data addr ext) ↔
      LeadInOk r ∧ ∀ k < b.bits,
        (tdiff (r (3 + 2 * k)) (r (2 + 2 * k)) > 900 ↔ (pack b addr data ext).getLsbD k = true) := by
  obtain ⟨v, hlt, hbits, hgood, hbad⟩ := runDecode_of_reads p hr
  rw [← unpack_pack hfields]
  constructor
  · intro hdecode
    by_cases hlead : LeadInOk r
    · rw [hgood hlead] at hdecode
      have hv := unpack_injective hlt (pack_lt b addr data ext) (Except.ok.inj hdecode)
      refine ⟨hlead, fun k hk => ?_⟩
      rw [← hv, hbits k, decide_eq_true hk, Bool.true_and, decide_eq_true_iff]
    · rw [hbad hlead, unpack_pack hfields] at hdecode
      cases hdecode
  · intro ⟨hlead, hmarks⟩
    have hpack := holdsDataBits_of_lt (pack_lt b addr data ext) hmarks
    rw [hgood hlead, hbits.unique hpack fun _ _ => Iff.rfl]

/-! ### Readings with latencies -/

/-- The reading of edge `j` of the train of `v`, late by `late j`. -/
def lateReading (b : Variant) (v : Word) (t0 : Nat) (late : Nat → Nat) (j : Nat) : Word :=
  readingAt ((edgesOf t0 (trainOf b v)).getD j 0 + late j)

/-- The memory holds the readings. -/
theorem reads_lateReading {b : Variant} {v : Word} {t0 : Nat} {late : Nat → Nat} {m : Memory}
    (h : ∀ j e, (edgesOf t0 (trainOf b v))[j]? = some e → m.read j = .ok (readingAt (e + late j))) :
    ∀ j < 2 + 2 * b.bits, m.read j = .ok (lateReading b v t0 late j) := by
  intro j hj
  have hlength : j < (edgesOf t0 (trainOf b v)).length := by
    rw [edgesOf_length, trainOf_length]
    omega
  rw [h j _ (List.getElem?_eq_getElem hlength), lateReading, List.getD_eq_getElem _ _ hlength]

/-- Edges `d` apart have readings that differ by `d` and by what the second is later than the first. -/
theorem tdiff_lateReading {b : Variant} {v : Word} {t0 : Nat} {late : Nat → Nat} {i j e d : Nat}
    (hi : (edgesOf t0 (trainOf b v))[i]? = some e) (hj : (edgesOf t0 (trainOf b v))[j]? = some (e + d))
    (hd : d < 2 ^ 28) (hlate : late j < late i + 2 ^ 28 ∧ late i < late j + 2 ^ 28) :
    tdiff (lateReading b v t0 late j) (lateReading b v t0 late i) = (d + late j : Int) - late i := by
  rw [lateReading, lateReading, List.getD_eq_getElem?_getD, List.getD_eq_getElem?_getD, hi, hj, Option.getD_some,
    Option.getD_some, tdiff_readingAt (by omega) (by omega)]
  omega

section
variable {b : Variant} {v : Word} {t0 : Nat} {late : Nat → Nat}
  (hlate : ∀ j, j + 1 < 2 + 2 * b.bits → late (j + 1) < late j + 2 ^ 28 ∧ late j < late (j + 1) + 2 ^ 28)
include hlate

/-- The lead-in stays inside its windows (rule R130). -/
theorem leadInOk_lateReading_iff :
    LeadInOk (lateReading b v t0 late) ↔
      late 1 < late 0 + 600 ∧ late 0 < late 1 + 600 ∧ late 2 < late 1 + 400 ∧ late 1 < late 2 + 250 := by
  have hbits := bits_ge b
  obtain ⟨e, hfirst, hmark, hspace⟩ := edgesOf_get (ps := trainOf b v) (k := 0) (q := leadPair) rfl t0
  have htwo := hspace (by rw [trainOf_length]; omega)
  have hleadMark := tdiff_lateReading hfirst hmark (by decide) (hlate 0 (by omega))
  have hleadSpace := tdiff_lateReading hmark htwo (by decide) (hlate 1 (by omega))
  simp only [Nat.mul_zero, Nat.zero_add] at hleadMark hleadSpace
  rw [LeadInOk, hleadMark, hleadSpace, show leadPair.mark.toNat = 2400 from rfl,
    show leadPair.space.toNat = 600 from rfl]
  omega

/-- The mark of a data bit stays on its side of 900 (rule R130). -/
theorem dataMark_lateReading_iff {k : Nat} (hk : k < b.bits) :
    (tdiff (lateReading b v t0 late (3 + 2 * k)) (lateReading b v t0 late (2 + 2 * k)) > 900 ↔
        v.getLsbD k = true) ↔
      ((v.getLsbD k = false → late (3 + 2 * k) ≤ late (2 + 2 * k) + 300) ∧
        (v.getLsbD k = true → late (2 + 2 * k) < late (3 + 2 * k) + 300)) := by
  obtain ⟨e, hstart, hend, -⟩ := edgesOf_get (trainOf_get hk v) t0
  rw [show 2 * (k + 1) + 1 = 3 + 2 * k by omega] at hend
  rw [show 2 * (k + 1) = 2 + 2 * k by omega] at hstart
  have hapart : late (3 + 2 * k) < late (2 + 2 * k) + 2 ^ 28 ∧ late (2 + 2 * k) < late (3 + 2 * k) + 2 ^ 28 := by
    have := hlate (2 + 2 * k) (by omega)
    rwa [show 2 + 2 * k + 1 = 3 + 2 * k by omega] at this
  have hwidth := bitPair_mark_toNat (v.getLsbD k)
  rw [tdiff_lateReading hstart hend (by rw [hwidth]; split <;> omega) hapart, hwidth]
  cases v.getLsbD k <;> simp <;> omega

end

/-- Settles O39: the lead-in and each data mark, each with its own condition. -/
theorem latencyToleranceIsExact : Obligations.LatencyToleranceIsExact := by
  intro p b addr data ext t0 m late hfields hlate hm
  rw [runDecode_eq_fields_iff p hfields (reads_lateReading hm), leadInOk_lateReading_iff hlate, and_assoc, and_assoc,
    and_assoc]
  exact and_congr_right fun _ => and_congr_right fun _ => and_congr_right fun _ => and_congr_right fun _ =>
    forall₂_congr fun k hk => dataMark_lateReading_iff hlate hk

/-- Settles O38: latencies less than 250 apart meet every condition. -/
theorem roundTripToleratesLatency : Obligations.RoundTripToleratesLatency := by
  intro p b addr data ext t0 m late hfields hlate hm
  have hbits := bits_ge b
  refine (latencyToleranceIsExact p b addr data ext t0 m late hfields
    (fun j hj => by have := hlate j hj; omega) hm).2 ?_
  have hmark : late 1 < late 0 + 250 ∧ late 0 < late 1 + 250 := hlate 0 (by omega)
  have hspace : late 2 < late 1 + 250 ∧ late 1 < late 2 + 250 := hlate 1 (by omega)
  refine ⟨by omega, by omega, by omega, by omega, fun k hk => ?_⟩
  have hbit := hlate (2 + 2 * k) (by omega)
  rw [show 2 + 2 * k + 1 = 3 + 2 * k by omega] at hbit
  exact ⟨fun _ => by omega, fun _ => by omega⟩

/-- Settles O37: without latency. -/
theorem encodedTrainDecodesToItsFields : Obligations.EncodedTrainDecodesToItsFields := by
  intro p b addr data ext t0 m hfields hm
  exact roundTripToleratesLatency p b addr data ext t0 m (fun _ => 0) hfields (fun _ _ => by omega) hm

end Sys2Proof.Machine
end

section
/-! A command sent, played, received and decoded (00_scope.md section 1): obligation O40, from the pieces: `TX` and `PLAY`, the
block of edges, the expiry and the round trip. -/

namespace Sys2Proof.Machine

/-! ### Transmitting -/

/-- The state after `TX` has built the train `ps` and `PLAY` has handed it over. -/
def State.played (s : State) (ps : List Pair) : State :=
  (s.setPulses ps).emit (.txout ps s.tx.freq s.tx.gap)

theorem execAll_tx_play {s : State} (hc : s.tx.conf = true)
    (hroom : ∀ cap, s.env.params.ptCap = some cap → 1 + s.tx.cfg.bits.bits ≤ cap) (addr data ext : Word) :
    execAll [.tx addr data ext, .play] s =
      .next (s.played (trainOf s.tx.cfg.bits (pack s.tx.cfg.bits addr data ext))) := by
  rw [execAll_cons (exec_tx_of_room hc hroom addr data ext),
    execAll_cons (exec_play_of_constructed ((setPulses_tx_conf _ _).trans hc))]
  rfl

/-- Every duration of an encoded train is positive, so it may come back as edges (rule R86). -/
theorem trainOf_positive (b : Variant) (v : Word) : (trainOf b v).all Pair.positive = true := by
  refine List.all_eq_true.2 fun q hq => ?_
  rcases List.mem_cons.1 hq with rfl | hbit
  · decide
  · obtain ⟨mark, space⟩ := q
    obtain ⟨rfl, rfl | rfl⟩ := bitPairs_mem hbit <;> decide

theorem expand_loopback {s : State} (h : s.tx.pulses.all Pair.positive = true) (t0 : Nat) :
    expand s (.loopback t0) = some (((edgesOf t0 s.tx.pulses).map readingAt).map Instr.edge) := by
  simp [expand, h, blockEdges]

/-! ### Receiving -/

/-- An armed receiver whose block decodes to `r` hands `r` over when the timer expires. -/
theorem execAll_fire_decode {s : State} {r : DecodeResult} (hp : s.rx.phase = .armed)
    (hr : runDecode s.rx.cfg s.rx.times s.rx.edge = .ok r) :
    execAll [.fire, .decode] s = .next (finishDecode r (s.setPhase .fired)) := by
  have hdecode : exec .decode (s.setPhase .fired) = .next (finishDecode r (s.setPhase .fired)) :=
    exec_decode_of_runDecode rfl hr
  rw [execAll_cons (exec_fire_of_waiting (.inl hp)), execAll_cons hdecode, execAll_nil]

/-- The data of a command in range is not negative. -/
theorem data_nonneg_of_fieldsInRange {b : Variant} {addr data ext : Word}
    (h : fieldsInRange b addr data ext = true) : 0 ≤ data.toInt := by
  have hdata : data.toNat ≤ 0x7F := by
    cases b with
    | b12 | b15 | b20 =>
      simp only [fieldsInRange, Bool.and_eq_true, decide_eq_true_eq] at h
      obtain ⟨⟨hle, -⟩, -⟩ := h
      exact hle
  rw [BitVec.toInt_eq_toNat_of_lt (by omega)]
  exact Int.natCast_nonneg _

/-- A memory that holds the readings of a train of the variant decodes to its fields (rule R129). -/
theorem runDecode_of_holdsBlock (p : Params) {b : Variant} {addr data ext : Word}
    (hfields : fieldsInRange b addr data ext = true) {t0 : Nat} {m₀ m : Memory} (hsize : m₀.size = 3 + 2 * b.bits)
    (hm : HoldsBlock ((edgesOf t0 (trainOf b (pack b addr data ext))).map readingAt) m₀ m) :
    runDecode (proto p b) m (2 + 2 * b.bits) = .ok (.valid data addr ext) := by
  refine encodedTrainDecodesToItsFields p b addr data ext t0 m hfields fun j e he => ?_
  have hj := (List.getElem?_eq_some_iff.1 he).1
  rw [edgesOf_length, trainOf_length] at hj
  exact hm.filled j _ (by omega) (by rw [List.getElem?_map, he]; rfl)

/-- An idle receiver to which a train of its variant comes as edges delivers the train's command, once the timer expires. -/
theorem receive_train {s : State} (hinv : RxInv s.env.params s.rx) (hp : s.rx.phase = .idle) {addr data ext : Word}
    (hfields : fieldsInRange s.rx.cfg.bits addr data ext = true) (t0 : Nat) {train : List Pair}
    (htrain : train = trainOf s.rx.cfg.bits (pack s.rx.cfg.bits addr data ext)) :
    ∃ t u, execAll (((edgesOf t0 train).map readingAt).map Instr.edge) s = .next t ∧
      execAll [.fire, .decode] t = .next u ∧
      u.out.events = s.out.events ++ [.cb s.rx.cb data addr ext s.rx.args] ∧ u.out.errors = s.out.errors ∧
      u.rx.phase = .idle ∧ u.rx.edge = 0 := by
  have hsize : s.rx.times.size = s.rx.cfg.nedges + 1 := hinv.times_size (by simp [hp])
  have hnedges : s.rx.cfg.nedges = 2 + 2 * s.rx.cfg.bits.bits := by rw [hinv.cfg, proto_nedges, proto_bits]
  have hlength : ((edgesOf t0 train).map readingAt).length = 2 + 2 * s.rx.cfg.bits.bits := by
    rw [List.length_map, edgesOf_length, htrain, trainOf_length]
    omega
  obtain ⟨d, m, hrun, hm⟩ := execAll_edges hp (hinv.idle_edge hp) hsize ((edgesOf t0 train).map readingAt)
  rw [hlength] at hrun
  have harmed : (s.afterBlock (2 + 2 * s.rx.cfg.bits.bits) d m).rx.phase = .armed := if_neg (by omega)
  have hdecode : runDecode s.rx.cfg m (min (2 + 2 * s.rx.cfg.bits.bits) (s.rx.cfg.nedges + 1)) =
      .ok (.valid data addr ext) := by
    rw [Nat.min_eq_left (by omega), hinv.cfg, proto_bits]
    exact runDecode_of_holdsBlock _ hfields (by omega) (htrain ▸ hm)
  have hreaches : data.toInt ≥ s.rx.cfg.thresh.toInt := by
    rw [hinv.cfg, proto_thresh]
    exact data_nonneg_of_fieldsInRange hfields
  exact ⟨_, _, hrun, execAll_fire_decode harmed hdecode,
    finishDecode_valid_events (s := (s.afterBlock (2 + 2 * s.rx.cfg.bits.bits) d m).setPhase .fired) hreaches,
    dispatch_errors _ _ _ _ _, by simp [finishDecode_rx], by simp [finishDecode_rx]⟩

/-- Settles O40: the transmitter hands the train over, and the receiver, which that leaves alone, gets it back. -/
theorem loopbackDeliversTheCommand : Obligations.LoopbackDeliversTheCommand := by
  intro s addr data ext t0 hinv hp hc hbits hfields hcap
  have hplay := execAll_tx_play hc (by rwa [hbits]) addr data ext
  rw [hbits] at hplay
  have hrx : RxInv s.env.params s.rx := (inv_iff.1 hinv).1
  obtain ⟨t, u, hreceive, hdecode, hevents, hrest⟩ := receive_train
    (s := s.played (trainOf s.rx.cfg.bits (pack s.rx.cfg.bits addr data ext))) hrx hp hfields t0 rfl
  exact ⟨_, _, t, u, hplay, expand_loopback (trainOf_positive _ _) t0, hreceive, hdecode,
    hevents.trans (List.append_assoc _ _ _), hrest⟩

end Sys2Proof.Machine
end
